-- ==== Sys2Proof/Word.lean ====
section
/-! DEFINITION. The word types of SEA24 (spec 00_scope.md R8, R10; 20_memory.md R50). -/

namespace Sys2Proof

/-- A byte: 8 bits, read unsigned unless a rule says otherwise (R10). -/
abbrev Byte := BitVec 8

/-- A 32-bit word: what one host access moves (R58), and what a command is (R80). -/
abbrev Word := BitVec 32

/-- A 24-bit value: a table index, a code, an immediate operand (R8, R80). -/
abbrev Word24 := BitVec 24

/-- The 64-bit key (R8, R30). -/
abbrev Key := BitVec 64

/-- A port address as the port carries it: the word address `A[11:2]` (R53).
The byte offset the spec writes is four times this number. -/
abbrev PortAddr := BitVec 10

/-- A permutation of the 24-bit values, with its inverse: the type of `PERM_OF(k)` (R9a). -/
abbrev Perm24 := Equiv.Perm Word24

end Sys2Proof
end

