-- ==== Sys2Proof/Syntax.lean ====
section
/-! DEFINITION. The commands of SEA24, one constructor per row of spec/opcode_table.json
(spec 30_encoding.md R82). The operands have the widths R81 gives them, so no instruction with an
operand out of range can be written down. -/

namespace Sys2Proof

/-- A decoded command (R82). I-form commands carry their 24-bit operand; Z-form commands read
`IBUF[0..ILEN)` or nothing (R80). -/
inductive Instr where
  /-- NOP, OP 0x00 (R170). -/
  | nop
  /-- RDFWD, OP 0x01: read the forward ROM at index `i` (R110). -/
  | rdfwd (i : Word24)
  /-- RDINV, OP 0x02: read the inverse ROM at code `c` (R111). -/
  | rdinv (c : Word24)
  /-- GETCODE, OP 0x03: encode the block `(x, y, z)`; IMM is `z:y:x` (R81, R112). -/
  | getcode (x y z : Byte)
  /-- GETORIG, OP 0x04: decode the group whose big-endian integer is `g` (R81, R113). -/
  | getorig (g : Word24)
  /-- ENCBLK, OP 0x05 (R114). -/
  | encblk
  /-- DECBLK, OP 0x06 (R115). -/
  | decblk
  /-- XORKS, OP 0x07 (R143). -/
  | xorks
  /-- CSUM, OP 0x08 (R160). -/
  | csum
  /-- FRAME, OP 0x09 (R161). -/
  | frame
  /-- UNFRAME, OP 0x0A (R162). -/
  | unframe
  /-- ENCRYPT, OP 0x0B (R172). -/
  | encrypt
  /-- DECRYPT, OP 0x0C (R178). -/
  | decrypt
deriving DecidableEq, Repr

end Sys2Proof
end

