-- ==== Sys2Proof/WellFormed.lean ====
section
/-! DEFINITION. What is well formed. An `Instr` always is: its operands have exactly the widths of
their fields. What can be ill formed is a command word (spec 30_encoding.md R83 to R85) and a line of
assembly, whose operands are numbers (R89). -/

namespace Sys2Proof

/-- One row of the opcode table as R83 reads it: `w` is this row's when `w &&& mask = value`. -/
structure OpcodeRow where
  mask : Word
  value : Word
deriving DecidableEq, Repr

/-- The row of an I-form command: the opcode alone is matched (R83). -/
def OpcodeRow.iForm (op : Byte) : OpcodeRow := ⟨0x000000FF#32, op.setWidth 32⟩

/-- The row of a Z-form command: the whole word is matched (R83). -/
def OpcodeRow.zForm (op : Byte) : OpcodeRow := ⟨0xFFFFFFFF#32, op.setWidth 32⟩

/-- The opcode table: the match and mask of its thirteen rows, in its order (R82, R83). -/
def opcodeRows : List OpcodeRow :=
  [.zForm 0x00#8, .iForm 0x01#8, .iForm 0x02#8, .iForm 0x03#8, .iForm 0x04#8, .zForm 0x05#8,
   .zForm 0x06#8, .zForm 0x07#8, .zForm 0x08#8, .zForm 0x09#8, .zForm 0x0A#8, .zForm 0x0B#8,
   .zForm 0x0C#8]

/-- Whether a row of the table matches the word (R83). -/
def OpcodeRow.matches (r : OpcodeRow) (w : Word) : Bool := w &&& r.mask == r.value

/-- A well-formed command word: one that a row of the table matches. Every other word is illegal
(R84, R85). -/
def commandWordWF (w : Word) : Bool := opcodeRows.any (·.matches w)

/-- A line of assembly: a mnemonic, as characters, and its operands, as numbers (R89). -/
structure AsmLine where
  mnemonic : List Char
  operands : List Nat
deriving DecidableEq, Repr

/-- The mnemonics that take no operand (R89). -/
def zMnemonics : List (List Char) :=
  ["NOP", "ENCBLK", "DECBLK", "XORKS", "CSUM", "FRAME", "UNFRAME", "ENCRYPT", "DECRYPT"].map
    String.toList

/-- The mnemonics that take one 24-bit number (R89). -/
def immMnemonics : List (List Char) := ["RDFWD", "RDINV", "GETORIG"].map String.toList

/-- A well-formed line: a known mnemonic, the number of operands it takes, and each operand in its
range. "An operand outside its range is an assembly error, and no word is produced." (R89) -/
def AsmLine.wf (l : AsmLine) : Bool :=
  (zMnemonics.contains l.mnemonic && l.operands.isEmpty) ||
  (immMnemonics.contains l.mnemonic && l.operands.length == 1 &&
    l.operands.all (· < 2 ^ 24)) ||
  (l.mnemonic == "GETCODE".toList && l.operands.length == 3 && l.operands.all (· < 2 ^ 8))

end Sys2Proof
end

