-- ==== Sys2Proof/Decode.lean ====
section
/-! DEFINITION. The decoder and the encoder of command words (spec 30_encoding.md R80 to R87).
`decode` is "a pure function of the 32-bit word" (R82) and is total: a word that is no command is
rejected with the reason. -/

namespace Sys2Proof

/-- Why a word is no command. The command step of such a word raises ILLEGAL_COMMAND (R202). -/
inductive Illegal where
  /-- The opcode is unassigned: 0x0D..0xFF (R84). -/
  | unassignedOpcode (op : Byte)
  /-- A Z-form opcode with IMM not zero (R85). -/
  | reservedOperand (op : Byte) (imm : Word24)
deriving DecidableEq, Repr

/-- OP, bits 7:0 (R80). -/
def opField (w : Word) : Byte := w.extractLsb' 0 8

/-- IMM, bits 31:8 (R80). -/
def immField (w : Word) : Word24 := w.extractLsb' 8 24

/-- The low byte `v[7:0]` of a 24-bit value. -/
def byteLo (v : Word24) : Byte := v.extractLsb' 0 8

/-- The middle byte `v[15:8]` of a 24-bit value. -/
def byteMid (v : Word24) : Byte := v.extractLsb' 8 8

/-- The high byte `v[23:16]` of a 24-bit value. -/
def byteHi (v : Word24) : Byte := v.extractLsb' 16 8

/-- `(hi << 16) | (mid << 8) | lo`: three bytes joined into a 24-bit value. -/
def join24 (hi mid lo : Byte) : Word24 := hi ++ mid ++ lo

/-- A Z-form word is legal only with IMM = 0 (R80, R85). -/
def decodeZ (i : Instr) (op : Byte) (imm : Word24) : Except Illegal Instr :=
  if imm = 0#24 then .ok i else .error (.reservedOperand op imm)

/-- R82's `decode(w)`. -/
def decode (w : Word) : Except Illegal Instr :=
  let op := opField w
  let imm := immField w
  match op.toNat with
  | 0x00 => decodeZ .nop op imm
  | 0x01 => .ok (.rdfwd imm)
  | 0x02 => .ok (.rdinv imm)
  | 0x03 => .ok (.getcode (byteLo imm) (byteMid imm) (byteHi imm))
  | 0x04 => .ok (.getorig imm)
  | 0x05 => decodeZ .encblk op imm
  | 0x06 => decodeZ .decblk op imm
  | 0x07 => decodeZ .xorks op imm
  | 0x08 => decodeZ .csum op imm
  | 0x09 => decodeZ .frame op imm
  | 0x0A => decodeZ .unframe op imm
  | 0x0B => decodeZ .encrypt op imm
  | 0x0C => decodeZ .decrypt op imm
  | _ => .error (.unassignedOpcode op)

/-- The word of an opcode and an immediate (R80). -/
def commandWord (op : Byte) (imm : Word24) : Word := imm ++ op

/-- The opcode of each command (R82). -/
def opcodeOf : Instr → Byte
  | .nop => 0x00#8
  | .rdfwd _ => 0x01#8
  | .rdinv _ => 0x02#8
  | .getcode _ _ _ => 0x03#8
  | .getorig _ => 0x04#8
  | .encblk => 0x05#8
  | .decblk => 0x06#8
  | .xorks => 0x07#8
  | .csum => 0x08#8
  | .frame => 0x09#8
  | .unframe => 0x0A#8
  | .encrypt => 0x0B#8
  | .decrypt => 0x0C#8

/-- The immediate of each command: the operand of an I-form command, zero for a Z-form one
(R80, R81). -/
def immOf : Instr → Word24
  | .rdfwd i => i
  | .rdinv c => c
  | .getcode x y z => join24 z y x
  | .getorig g => g
  | .nop => 0#24
  | .encblk => 0#24
  | .decblk => 0#24
  | .xorks => 0#24
  | .csum => 0#24
  | .frame => 0#24
  | .unframe => 0#24
  | .encrypt => 0#24
  | .decrypt => 0#24

/-- The word of a command (R80 to R82). -/
def encode (i : Instr) : Word := commandWord (opcodeOf i) (immOf i)

/-- A command word given as a number whose bits are those of opcode_table.json; bits at and above
`nbits` are zero. A command is one 32-bit word (R87), held in CMD, which has no byte order. -/
def tableWord (nbits w : Nat) : Word := BitVec.ofNat 32 (w % 2 ^ nbits)

/-- The instruction the decoder reads from a word numbered as the opcode table numbers it. -/
def decodeTableWord (nbits w : Nat) : Option Instr :=
  match decode (tableWord nbits w) with
  | .ok i => some i
  | .error _ => none

end Sys2Proof
end

