-- ==== Sys2Proof/Config.lean ====
section
/-! DEFINITION. What the spec leaves to the instance (spec 00_scope.md R8): the open parameters.
The opaque constants have no body: nothing can be proved of them but what their types say. -/

namespace Sys2Proof

/-- The decoder's treatment of complete groups made of XOR zero padding (R8, R176; D17). -/
inductive DecodePolicy where
  /-- Decode at most the groups that the frame's own length byte implies: the spec's default. -/
  | frameBounded
  /-- Decode every complete group, as the source's text is written. -/
  | literal
deriving DecidableEq, Repr

/-- Which permutation an instance's tables hold (log 2). R8 makes `PERM_OF` an argument of the model;
State is plain data, so the argument is a name for the permutation, not the function itself. -/
inductive TableParam where
  /-- `PERM_OF(KEY)`, uninterpreted: `Config.permOf` of the key (R9). -/
  | keyed
  /-- `TESTPERM`, the stand-in that the spec's vectors use (R15, 95_test_vectors.md). -/
  | testPerm
deriving DecidableEq, Repr

/-- `PERM_OF` (R8, R9): a bijection of the 24-bit values for each key, and a function of the key
alone. R9: "A model assumes nothing of `PERM_OF` beyond (a) and (b)". OPEN: no value is given. -/
opaque Config.permOf : Key → Perm24

/-- What stands on the `key_in` pins when the machine comes out of its first reset (R231): an input
of the block, so nothing is assumed of it (log 4). -/
opaque Config.keyIn : Key

/-- `PORT_BASE`, where the 4 KiB port window sits on the host's bus (R8, R60). OPEN, and "unused by
every rule": port addresses in this model are offsets within the window (log 16). -/
opaque Config.portBase : Nat

/-- The integer that the source reads from a chunk in which some character is no hexadecimal digit:
the spec gives none (91_not_in_source.md N13), so nothing is assumed of it (log 22). -/
opaque Config.nonHexInt : List Char → Nat

end Sys2Proof
end

