-- ==== Sys2Proof/Machine/State.lean ====
section
/-! DEFINITION. The state of SEA24 as plain data (spec 10_state.md R20 to R38), with the world
outside the block that its port serves: the host's remaining operations, what its reads returned,
the level on `key_in`, and whose turn it is (R16, R63, R64). -/

namespace Sys2Proof.Machine

/-- The error codes of STATUS.ERR (R200). Codes 8 to 15 are "never produced", so they have no name
here (log 11). -/
inductive ErrCode where
  /-- 0: success. -/
  | ok
  /-- 1: raised by UNFRAME and DECRYPT. -/
  | invalidLength
  /-- 2: raised by UNFRAME and DECRYPT. -/
  | invalidPadding
  /-- 3: raised by UNFRAME and DECRYPT. -/
  | checksumMismatch
  /-- 4: reported by the host adapter only (R191). -/
  | malformedKey
  /-- 5: ILEN out of range for the command (R201). -/
  | badArgument
  /-- 6: the command word is illegal (R202). -/
  | illegalCommand
  /-- 7: reported by the host adapter only (R193). -/
  | malformedCiphertext
deriving DecidableEq, Repr

/-- PHASE: the life cycle (R34). -/
inductive Phase where
  | constructing
  | ready
deriving DecidableEq, Repr

/-- The two agents (R16). -/
inductive Agent where
  | host
  | engine
deriving DecidableEq, Repr

/-- One operation of the host: a line of a host program (R90 to R94), or a move on the pins that
R197 gives the host ("re-key"). -/
inductive HostOp where
  /-- `wr <offset>, <value32>`: MemWrite (R90). -/
  | wr (a : PortAddr) (v : Word)
  /-- `rd <offset>`: MemRead (R90). -/
  | rd (a : PortAddr)
  /-- `rd <offset> == <value32>`: MemRead with the value the program expects (R90). -/
  | rdEq (a : PortAddr) (v : Word)
  /-- `poll`: `rd STATUS`, repeated until bit 0 of the value read is 0 (R93). -/
  | poll
  /-- `readout`: `rd OLEN`, then the OBUF words that hold that many bytes (R94). -/
  | readout
  /-- Present a key on `key_in[63:0]` (R197, R235). -/
  | driveKey (k : Key)
  /-- Assert `rst`: the reset event (R230). -/
  | reset
deriving DecidableEq, Repr

/-- What one host read returned, and what the program expected there, if it said (R90). -/
structure PortRead where
  addr : PortAddr
  value : Word
  expected : Option Word
deriving DecidableEq, Repr

/-- Bytes by address, as data: the buffers of the port space, keyed by the byte offset within the
port (R50, R51). Kept in one canonical form (`Memory.wf`): addresses strictly rising, and no byte
that is what an unlisted address reads as. -/
abbrev Memory := List Host.Cell

/-- The state. -/
structure State where
  /-- CMD: the last accepted command word (R22). -/
  cmd : Word
  /-- STATUS.OVR: the sticky overrun flag (R23). -/
  ovr : Bool
  /-- STATUS.ERR: the code of the last completed command (R23, R200). -/
  err : ErrCode
  /-- ILEN (R24). -/
  ilen : BitVec 9
  /-- OLEN (R25). -/
  olen : BitVec 9
  /-- RESULT (R26). -/
  result : Word24
  /-- CONFIG bit 0, DECODE_POLICY: fixed for the life of an instance (R27). -/
  policy : DecodePolicy
  /-- IBUF and OBUF, at their byte offsets in the port space (R28, R29, R51). -/
  mem : Memory
  /-- KEY (R30). -/
  key : Key
  /-- PHASE (R34). -/
  phase : Phase
  /-- PEND: a command is accepted and not completed (R34). -/
  pend : Bool
  /-- Which permutation the tables hold: the instance's `PERM_OF` (R8, R9). FWD and INV are functions
  of this and KEY, as R33 allows. -/
  tables : TableParam
  /-- The level on the pins `key_in[63:0]` (R231). -/
  keyIn : Key
  /-- The operations the host has still to make, in its own order (R63). -/
  hostOps : List HostOp
  /-- What the host's reads returned, oldest first (R56). -/
  reads : List PortRead
  /-- Who moves next, and after that (R64). -/
  turns : List Agent
deriving DecidableEq, Repr

/-- Why the machine stops with a fault: it never does. Every failure is an error code in STATUS.ERR
and the block "stays READY after any error" (R206, R207), so this type has no constructor (log 10). -/
inductive Fault where
deriving DecidableEq, Repr

/-- Why an instruction has no meaning. -/
inductive Refusal where
  /-- An instruction that has no meaning yet, by its mnemonic; safe. Raised by no arm of `exec`:
  every command has its meaning. -/
  | notModelled (mnemonic : String)
deriving DecidableEq, Repr

/-- The machine right after reset (R38, R230): PHASE is CONSTRUCTING, every register, flag and
buffer zero, KEY what stood on `key_in` (R231). The instance has the spec's default policy (log 3)
and uninterpreted tables (log 2); the host has no operation yet and no turn is listed (logs 6, 7). -/
def State.reset : State where
  cmd := 0#32
  ovr := false
  err := .ok
  ilen := 0#9
  olen := 0#9
  result := 0#24
  policy := .frameBounded
  mem := []
  key := Config.keyIn
  phase := .constructing
  pend := false
  tables := .keyed
  keyIn := Config.keyIn
  hostOps := []
  reads := []
  turns := []

end Sys2Proof.Machine
end

