-- ==== Sys2Proof/Machine/Ops.lean ====
section
/-! DEFINITION. The operations every command is written over: the integer and sequence primitives
(spec 00_scope.md R11, R12), reading and writing bytes, the tables, the two commits of
60_exceptions.md (R204, R205), the build step and the reset event (70_reset_and_hazards.md). -/

namespace Sys2Proof.Machine

/-! Integer and sequence primitives (R11, R12). -/

/-- `s8(b)`: the two's-complement reading of a byte (R11, D13). -/
def s8 (b : Byte) : Int := if b.toNat < 128 then (b.toNat : Int) else (b.toNat : Int) - 256

/-- `trunc8(v)`: `v mod 256`, as a byte (R11). -/
def trunc8 (v : Int) : Byte := BitVec.ofInt 8 v

/-- `rem(a, n)`: the remainder of the quotient rounded toward zero; it has the sign of `a`
(R11, D13). -/
def rem (a n : Int) : Int := Int.tmod a n

/-- `ceil8(n)`: the least multiple of 8 that is at least `n` (R11). -/
def ceil8 (n : Nat) : Nat := 8 * ((n + 7) / 8)

/-- `bswap24(v)` (R11). -/
def bswap24 (v : Word24) : Word24 := join24 (byteLo v) (byteMid v) (byteHi v)

/-- The three bytes of a 24-bit value, low byte first (R103, R104). -/
def bytes24 (v : Word24) : List Byte := [byteLo v, byteMid v, byteHi v]

/-- `zeros(n)` (R12). -/
def zeros (n : Nat) : List Byte := List.replicate n 0#8

/-! Bytes of the port space (R28, R29, R51). -/

/-- The size of IBUF and of OBUF in bytes (R28, R29; D6). -/
def bufSize : Nat := 264

/-- The byte offset of IBUF in the port space (R51). -/
def ibufBase : Nat := 0x100

/-- The byte offset of OBUF in the port space (R51). -/
def obufBase : Nat := 0x300

/-- What a byte that is not listed reads as: the buffers reset to 0x00 (R38). -/
def Memory.unlisted : Byte := 0x00#8

/-- Reads the byte at an address. -/
def Memory.read : Memory → Nat → Byte
  | [], _ => Memory.unlisted
  | c :: rest, a => if c.1 = a then c.2 else Memory.read rest a

/-- Writes the byte at an address, keeping the canonical form: writing what an unlisted address reads
as removes the entry. -/
def Memory.write : Memory → Nat → Byte → Memory
  | [], a, b => if b = Memory.unlisted then [] else [(a, b)]
  | c :: rest, a, b =>
    if a < c.1 then (if b = Memory.unlisted then c :: rest else (a, b) :: c :: rest)
    else if a = c.1 then (if b = Memory.unlisted then rest else (a, b) :: rest)
    else c :: Memory.write rest a b

/-- The canonical form: addresses strictly rising, no entry equal to what an unlisted address reads
as. -/
abbrev Memory.wf (m : Memory) : Prop :=
  (m.map Prod.fst).Pairwise (· < ·) ∧ ∀ c ∈ m, c.2 ≠ Memory.unlisted

/-- Reads `n` bytes from an address upward. -/
def Memory.load (m : Memory) (a : Nat) : Nat → List Byte
  | 0 => []
  | n + 1 => Memory.read m a :: Memory.load m (a + 1) n

/-- Writes a byte string from an address upward. -/
def Memory.store (m : Memory) (a : Nat) : List Byte → Memory
  | [] => m
  | b :: rest => Memory.store (Memory.write m a b) (a + 1) rest

/-- The bytes of a 32-bit word, `word[7:0]` first (R54). -/
def wordBytes (v : Word) : List Byte :=
  [v.extractLsb' 0 8, v.extractLsb' 8 8, v.extractLsb' 16 8, v.extractLsb' 24 8]

/-- Four bytes packed into a word, the first in bits 7:0 (R54). -/
def packWord (b0 b1 b2 b3 : Byte) : Word := b3 ++ b2 ++ b1 ++ b0

/-- Reads the buffer word at a byte offset, little-endian (R54). -/
def Memory.loadWord (m : Memory) (a : Nat) : Word :=
  packWord (m.read a) (m.read (a + 1)) (m.read (a + 2)) (m.read (a + 3))

/-- Writes the buffer word at a byte offset, little-endian (R54, R57). -/
def Memory.storeWord (m : Memory) (a : Nat) (v : Word) : Memory := m.store a (wordBytes v)

/-- `IBUF[j]` (R13). -/
def State.ibuf (s : State) (j : Nat) : Byte := s.mem.read (ibufBase + j)

/-- `OBUF[j]` (R13). -/
def State.obuf (s : State) (j : Nat) : Byte := s.mem.read (obufBase + j)

/-- `OBUF[0..OLEN)`: the output string of the last command that produced one (R25). -/
def State.output (s : State) : List Byte := s.mem.load obufBase s.olen.toNat

/-! The tables (R31 to R33, R100, R101). -/

/-- `TESTPERM`: `i ↦ (5·i + 0x123457) mod 2^24`, whose inverse is
`c ↦ ((c − 0x123457)·0xCCCCCD) mod 2^24` (R15, 40_cube.md). -/
def testPerm : Perm24 where
  toFun i := 5#24 * i + 0x123457#24
  invFun c := (c - 0x123457#24) * 0xCCCCCD#24
  left_inv i := by
    show (5#24 * i + 0x123457#24 - 0x123457#24) * 0xCCCCCD#24 = i
    rw [BitVec.add_sub_cancel, BitVec.mul_comm, ← BitVec.mul_assoc]; simp
  right_inv c := by
    show 5#24 * ((c - 0x123457#24) * 0xCCCCCD#24) + 0x123457#24 = c
    rw [BitVec.mul_comm (c - 0x123457#24), ← BitVec.mul_assoc]; simp

/-- `PERM`: the permutation of this instance under its current KEY (R9, R30). -/
def State.perm (s : State) : Perm24 :=
  match s.tables with
  | .keyed => Config.permOf s.key
  | .testPerm => testPerm

/-- `RomRead(FWD, i)`: `FWD[i] = PERM(i)` (R31, R101). -/
def State.fwd (s : State) (i : Word24) : Word24 := s.perm i

/-- `RomRead(INV, c)`: `INV[c]` is the index that PERM takes to `c` (R32, R101). -/
def State.inv (s : State) (c : Word24) : Word24 := s.perm.symm c

/-! The commits. -/

/-- The error commit, `raise Err(code)` (R204): ERR takes the code, OLEN and RESULT are zero, PEND
falls; OBUF, IBUF, ILEN, CMD, OVR, KEY, FWD and INV are unchanged. This is all that "taking an
exception" is in this block: nothing is saved and no control moves (R206). -/
def raiseErr (code : ErrCode) (s : State) : State :=
  { s with err := code, olen := 0#9, result := 0#24, pend := false }

/-- `OBUF[0 .. len(out)) <- out; OLEN <- len(out)`, or nothing (R205). -/
def writeOut (out : Option (List Byte)) (s : State) : State :=
  match out with
  | none => s
  | some bs => { s with mem := s.mem.store obufBase bs, olen := BitVec.ofNat 9 bs.length }

/-- `RESULT <- res`, or nothing (R205). -/
def writeResult (res : Option Word24) (s : State) : State :=
  match res with
  | none => s
  | some v => { s with result := v }

/-- The success commit, `commit_ok(out, res)` (R205); `none` for `res` is `unchanged`. -/
def commitOk (out : Option (List Byte)) (res : Option Word24) (s : State) : State :=
  { writeResult res (writeOut out s) with err := .ok, pend := false }

/-- The commit of a computation that answers a string or an error (R162, R178). -/
def commitString (r : Except ErrCode (List Byte)) (s : State) : State :=
  match r with
  | .ok out => commitOk (some out) none s
  | .error e => raiseErr e s

/-! The life cycle (R230 to R234). -/

/-- The build step (R232): PHASE goes to READY and nothing else changes; the tables are those of KEY
(R31 to R33). -/
def buildTables (s : State) : State := { s with phase := .ready }

/-- The reset event (R230, R231, R233): every piece of the block's state takes its reset value and
KEY samples `key_in`. The instance's parameters (R27) and the world outside the block stay
(log 18). -/
def resetEvent (s : State) : State :=
  { State.reset with
    key := s.keyIn, keyIn := s.keyIn, policy := s.policy, tables := s.tables,
    hostOps := s.hostOps, reads := s.reads, turns := s.turns }

end Sys2Proof.Machine
end

