-- ==== Sys2Proof/Machine/Operands.lean ====
section
/-! DEFINITION. The operand forms (spec 30_encoding.md R80, R81): a string operand is the first ILEN
bytes of IBUF, checked against the command's limit first (60_exceptions.md R201); the block of
GETCODE is a table index (40_cube.md R102). -/

namespace Sys2Proof.Machine

/-- `In = IBUF[0..ILEN)` (R13, R81). -/
def State.input (s : State) : List Byte := s.mem.load ibufBase s.ilen.toNat

/-- `idx(b0, b1, b2) = (b2 << 16) | (b1 << 8) | b0`: `b0` is the low byte (R102). -/
def blockIndex (b0 b1 b2 : Byte) : Word24 := join24 b2 b1 b0

/-- `g(h0, h1, h2) = (h0 << 16) | (h1 << 8) | h2`: the group read big-endian (R104). -/
def groupInt (h0 h1 h2 : Byte) : Word24 := join24 h0 h1 h2

/-- The longest input of a command that only needs its input to lie in the buffer (R201; D19). -/
def maxInput : Nat := 264

/-- The longest message of FRAME and ENCRYPT (R201; D14). -/
def maxMessage : Nat := 255

/-- A string command: BAD_ARGUMENT when ILEN is over the limit, "checked at the start of the command
step before any other work" (R201); else what the command commits for its input. -/
def withInput (limit : Nat) (body : List Byte → State → State) (s : State) : State :=
  if limit < s.ilen.toNat then raiseErr .badArgument s else body s.input s

end Sys2Proof.Machine
end

