-- ==== Sys2Proof/Machine/Cube.lean ====
section
/-! DEFINITION. The substitution tables' commands and the 3-byte block encoder and decoder
(spec 40_cube.md): RDFWD, RDINV, GETCODE, GETORIG, ENCBLK, DECBLK. -/

namespace Sys2Proof.Machine

/-- `getCode(b0, b1, b2)`: the code's bytes, low, middle, high (R102, R103). -/
def getCode (p : Perm24) (b0 b1 b2 : Byte) : List Byte := bytes24 (p (blockIndex b0 b1 b2))

/-- `getOriginal(g)`: the bytes of `INV[bswap24(g)]`, low, middle, high (R104). -/
def getOriginal (p : Perm24) (g : Word24) : List Byte := bytes24 (p.symm (bswap24 g))

/-- `decGroup(h0, h1, h2)`: getOriginal of the group read big-endian (R104). -/
def decGroup (p : Perm24) (h0 h1 h2 : Byte) : List Byte := getOriginal p (groupInt h0 h1 h2)

/-- `EncBlocks(s)` (R106). The spec defines it for lengths that are multiples of 3; the commands give
it no other (log 17). -/
def encBlocks (p : Perm24) : List Byte → List Byte
  | b0 :: b1 :: b2 :: rest => getCode p b0 b1 b2 ++ encBlocks p rest
  | _ => []

/-- `DecBlocks(s, n)`: the first `min(n, G)` groups decoded; the bytes after the last complete group
are never read (R107). -/
def decBlocks (p : Perm24) : Nat → List Byte → List Byte
  | n + 1, h0 :: h1 :: h2 :: rest => decGroup p h0 h1 h2 ++ decBlocks p n rest
  | _, _ => []

/-- `DecAll(s)`: every complete group (R107). -/
def decAll (p : Perm24) (s : List Byte) : List Byte := decBlocks p (s.length / 3) s

/-- RDFWD (R110). -/
def execRdfwd (i : Word24) (s : State) : Host.Outcome State Fault Refusal :=
  .next (commitOk none (some (s.fwd i)) s)

/-- RDINV (R111): no byte swap is applied. -/
def execRdinv (c : Word24) (s : State) : Host.Outcome State Fault Refusal :=
  .next (commitOk none (some (s.inv c)) s)

/-- GETCODE (R112). -/
def execGetcode (x y z : Byte) (s : State) : Host.Outcome State Fault Refusal :=
  .next (commitOk (some (getCode s.perm x y z)) (some (s.fwd (blockIndex x y z))) s)

/-- GETORIG (R113). -/
def execGetorig (g : Word24) (s : State) : Host.Outcome State Fault Refusal :=
  .next (commitOk (some (getOriginal s.perm g)) (some (s.inv (bswap24 g))) s)

/-- What ENCBLK does with an input that fits the buffer: BAD_ARGUMENT unless its length is a multiple
of 3, else the encoded string (R114). -/
def encblkBody (input : List Byte) (s : State) : State :=
  if input.length % 3 = 0 then commitOk (some (encBlocks s.perm input)) none s
  else raiseErr .badArgument s

/-- ENCBLK (R114). -/
def execEncblk (s : State) : Host.Outcome State Fault Refusal :=
  .next (withInput maxInput encblkBody s)

/-- DECBLK (R115): no frame bound. -/
def execDecblk (s : State) : Host.Outcome State Fault Refusal :=
  .next (withInput maxInput (fun input t => commitOk (some (decAll t.perm input)) none t) s)

end Sys2Proof.Machine
end

