-- ==== Sys2Proof/Machine/Framer.lean ====
section
/-! DEFINITION. The message framer, the checksum and the validator (spec 42_framer.md): CSUM, FRAME,
UNFRAME. -/

namespace Sys2Proof.Machine

/-- One step of the checksum: `trunc8(rem(s8(acc) + s8(b), 127) + 1)` (R150). -/
def csumStep (acc b : Byte) : Byte := trunc8 (rem (s8 acc + s8 b) 127 + 1)

/-- `CSum(s)`: a left-to-right fold from 0x00 (R150). -/
def csum (s : List Byte) : Byte := s.foldl csumStep 0x00#8

/-- `k = 3 − (n mod 3)`, the padding count and the padding byte's value, for `n` bytes before the
padding (R152). -/
def padCount (n : Nat) : Nat := 3 - n % 3

/-- The frame before its padding: the length byte, the message, the checksum (R152). -/
def frameBody (m : List Byte) : List Byte := BitVec.ofNat 8 m.length :: (m ++ [csum m])

/-- `Frame(m)` (R152). The length byte holds the length, so the message has at most 255 bytes; the
commands refuse a longer one. -/
def frame (m : List Byte) : List Byte :=
  let k := padCount (frameBody m).length
  frameBody m ++ List.replicate k (BitVec.ofNat 8 k)

/-- `nb(L) = floor((L+2)/3) + 1`: the number of blocks in the frame of a message of `L` bytes
(R153). -/
def frameBlocks (l : Nat) : Nat := (l + 2) / 3 + 1

/-- `F(L) = 3·nb(L)`: the frame's length in bytes (R153). -/
def frameLength (l : Nat) : Nat := 3 * frameBlocks l

/-- `Unframe(d)`, its checks in the order of R154: an empty buffer, `L > m`, `L + 2 > m`, the
trailing bytes, the checksum. -/
def unframe (d : List Byte) : Except ErrCode (List Byte) :=
  match d with
  | [] => .error .invalidLength
  | first :: rest =>
    let l := first.toNat
    if d.length < l then .error .invalidLength
    else if d.length < l + 2 then .error .invalidLength
    else if (d.drop (l + 2)).any (fun b => b.toNat != d.length - (l + 2)) then
      .error .invalidPadding
    else if rest[l]? = some (csum (rest.take l)) then .ok (rest.take l)
    else .error .checksumMismatch

/-- CSUM (R160): the checksum, zero-extended to 24 bits. -/
def execCsum (s : State) : Host.Outcome State Fault Refusal :=
  .next (withInput maxInput (fun input t => commitOk none (some ((csum input).setWidth 24)) t) s)

/-- FRAME (R161). -/
def execFrame (s : State) : Host.Outcome State Fault Refusal :=
  .next (withInput maxMessage (fun input t => commitOk (some (frame input)) none t) s)

/-- UNFRAME (R162). -/
def execUnframe (s : State) : Host.Outcome State Fault Refusal :=
  .next (withInput maxInput (fun input t => commitString (unframe input) t) s)

end Sys2Proof.Machine
end

