-- ==== Sys2Proof/Machine/Stream.lean ====
section
/-! DEFINITION. The repeating-key XOR unit (spec 41_stream_xor.md): XORKS. -/

namespace Sys2Proof.Machine

/-- `KB[j] = KEY[63 - 8j : 56 - 8j]`, for `j` in 0..7 (R140): byte 0 is the key's highest. -/
def keyByte (key : Key) (j : Nat) : Byte := key.extractLsb' (56 - 8 * j) 8

/-- The bytes of a string from offset `j` on, each XORed with `KB[j mod 8]` (R141). -/
def xorFrom (key : Key) : Nat → List Byte → List Byte
  | _, [] => []
  | j, b :: rest => (b ^^^ keyByte key (j % 8)) :: xorFrom key (j + 1) rest

/-- The string extended with zero bytes to a multiple of 8 (R141). -/
def padTo8 (s : List Byte) : List Byte := s ++ zeros (ceil8 s.length - s.length)

/-- `XorStream(s)` (R141). -/
def xorStream (key : Key) (s : List Byte) : List Byte := xorFrom key 0 (padTo8 s)

/-- XORKS (R143). -/
def execXorks (s : State) : Host.Outcome State Fault Refusal :=
  .next (withInput maxInput (fun input t => commitOk (some (xorStream t.key input)) none t) s)

end Sys2Proof.Machine
end

