-- ==== Sys2Proof/Machine/Codec.lean ====
section
/-! DEFINITION. The pipelines and NOP (spec 43_codec.md): NOP, ENCRYPT, DECRYPT. -/

namespace Sys2Proof.Machine

/-- `Encrypt(m) = XorStream(EncBlocks(Frame(m)))` (R171). -/
def encryptBytes (p : Perm24) (key : Key) (m : List Byte) : List Byte :=
  xorStream key (encBlocks p (frame m))

/-- The frame's length byte as FRAME_BOUNDED takes it: the first byte of the first decoded group;
none when there is no complete group (R176). -/
def lengthByte (p : Perm24) : List Byte → Option Byte
  | h0 :: h1 :: h2 :: _ => (decGroup p h0 h1 h2).head?
  | _ => none

/-- `Groups(h)` (R176). -/
def groups (policy : DecodePolicy) (p : Perm24) (h : List Byte) : List Byte :=
  match policy with
  | .literal => decAll p h
  | .frameBounded =>
    match lengthByte p h with
    | none => []
    | some l => decBlocks p (frameBlocks l.toNat) h

/-- `Decrypt(c) = Unframe(Groups(XorStream(c)))` (R177). -/
def decryptBytes (policy : DecodePolicy) (p : Perm24) (key : Key) (c : List Byte) :
    Except ErrCode (List Byte) :=
  unframe (groups policy p (xorStream key c))

/-- NOP (R170): sets only ERR to OK. -/
def execNop (s : State) : Host.Outcome State Fault Refusal := .next (commitOk none none s)

/-- ENCRYPT (R172). -/
def execEncrypt (s : State) : Host.Outcome State Fault Refusal :=
  .next (withInput maxMessage
    (fun input t => commitOk (some (encryptBytes t.perm t.key input)) none t) s)

/-- DECRYPT (R178). -/
def execDecrypt (s : State) : Host.Outcome State Fault Refusal :=
  .next (withInput maxInput
    (fun input t => commitString (decryptBytes t.policy t.perm t.key input) t) s)

end Sys2Proof.Machine
end

