-- ==== Sys2Proof/Machine/Dispatch.lean ====
section
/-! DEFINITION. The dispatch of a decoded command to its meaning (spec 30_encoding.md R82). -/

namespace Sys2Proof.Machine

/-- The engine's command step of a decoded command (R65, R82). -/
def exec (i : Instr) (s : State) : Host.Outcome State Fault Refusal :=
  match i with
  | .nop => Sys2Proof.Machine.execNop s
  | .rdfwd i1 => Sys2Proof.Machine.execRdfwd i1 s
  | .rdinv c => Sys2Proof.Machine.execRdinv c s
  | .getcode x y z => Sys2Proof.Machine.execGetcode x y z s
  | .getorig g => Sys2Proof.Machine.execGetorig g s
  | .encblk => Sys2Proof.Machine.execEncblk s
  | .decblk => Sys2Proof.Machine.execDecblk s
  | .xorks => Sys2Proof.Machine.execXorks s
  | .csum => Sys2Proof.Machine.execCsum s
  | .frame => Sys2Proof.Machine.execFrame s
  | .unframe => Sys2Proof.Machine.execUnframe s
  | .encrypt => Sys2Proof.Machine.execEncrypt s
  | .decrypt => Sys2Proof.Machine.execDecrypt s

end Sys2Proof.Machine
end

