-- ==== Sys2Proof/Machine/Flags.lean ====
section
/-! DEFINITION. The flags: STATUS and its fields, and CONFIG (spec 10_state.md R23, R27;
60_exceptions.md R200). -/

namespace Sys2Proof.Machine

/-- `BUSY = (PHASE = CONSTRUCTING) or (PEND = 1)` (R23). -/
def State.busy (s : State) : Bool := s.phase == .constructing || s.pend

/-- READY: 1 iff PHASE = READY (R23). -/
def State.ready (s : State) : Bool := s.phase == .ready

/-- The number of an error code (R200). -/
def ErrCode.code : ErrCode → BitVec 4
  | .ok => 0#4
  | .invalidLength => 1#4
  | .invalidPadding => 2#4
  | .checksumMismatch => 3#4
  | .malformedKey => 4#4
  | .badArgument => 5#4
  | .illegalCommand => 6#4
  | .malformedCiphertext => 7#4

/-- Whether the block itself may put the code in ERR: not the two that only the host adapter reports
(R200). -/
def ErrCode.ofBlock : ErrCode → Bool
  | .malformedKey => false
  | .malformedCiphertext => false
  | .ok => true
  | .invalidLength => true
  | .invalidPadding => true
  | .checksumMismatch => true
  | .badArgument => true
  | .illegalCommand => true

/-- STATUS, put together from its fields: bits 31:12 zero, ERR 11:8, bits 7:3 zero, OVR 2, READY 1,
BUSY 0 (R23, R56). -/
def State.status (s : State) : Word :=
  0#20 ++ s.err.code ++ 0#5 ++ BitVec.ofBool s.ovr ++ BitVec.ofBool s.ready ++ BitVec.ofBool s.busy

/-- CONFIG: bit 0 is DECODE_POLICY, 0 = FRAME_BOUNDED, 1 = LITERAL (R27). -/
def State.config (s : State) : Word :=
  match s.policy with
  | .frameBounded => 0#32
  | .literal => 1#32

/-- ID: a constant (R21). -/
def idWord : Word := 0x53454101#32

end Sys2Proof.Machine
end

