-- ==== Sys2Proof/Machine/Port.lean ====
section
/-! DEFINITION. The host's register port (spec 20_memory.md R50 to R58) and the host's moves on it
(30_encoding.md R90 to R94, 44_host_adapter.md R197). -/

namespace Sys2Proof.Machine

/-- What a port address reaches (R51). -/
inductive PortReg where
  | id
  | cmd
  | status
  | ilen
  | olen
  | result
  | config
  /-- IBUF word `w`, 0 to 65. -/
  | ibuf (w : Nat)
  /-- OBUF word `w`, 0 to 65. -/
  | obuf (w : Nat)
  | reserved
deriving DecidableEq, Repr

/-- The byte offset of a port address: `offset >> 2` is the word address (R53). -/
def portOffset (a : PortAddr) : Nat := 4 * a.toNat

/-- The port address of a byte offset (R53). -/
def portAddr (offset : Nat) : PortAddr := BitVec.ofNat 10 (offset / 4)

/-- The address map, by byte offset (R51). -/
def portReg (a : PortAddr) : PortReg :=
  let off := portOffset a
  if off = 0x000 then .id
  else if off = 0x004 then .cmd
  else if off = 0x008 then .status
  else if off = 0x00C then .ilen
  else if off = 0x010 then .olen
  else if off = 0x014 then .result
  else if off = 0x018 then .config
  else if 0x100 ≤ off ∧ off ≤ 0x204 then .ibuf ((off - 0x100) / 4)
  else if 0x300 ≤ off ∧ off ≤ 0x404 then .obuf ((off - 0x300) / 4)
  else .reserved

/-- `MemRead(off, 4)`: the word a host read returns (R56). "No read changes any state": the value is
all there is. -/
def memRead (s : State) (a : PortAddr) : Word :=
  match portReg a with
  | .id => idWord
  | .cmd => s.cmd
  | .status => s.status
  | .ilen => s.ilen.setWidth 32
  | .olen => s.olen.setWidth 32
  | .result => s.result.setWidth 32
  | .config => s.config
  | .ibuf w => s.mem.loadWord (ibufBase + 4 * w)
  | .obuf w => s.mem.loadWord (obufBase + 4 * w)
  | .reserved => 0#32

/-- A host write that BUSY blocks: it sets OVR and has no effect on its target (R34, R57). -/
def unlessBusy (s t : State) : State := if s.busy then { s with ovr := true } else t

/-- `MemWrite(off, 4, v)` (R57). -/
def memWrite (s : State) (a : PortAddr) (v : Word) : State :=
  match portReg a with
  | .cmd => unlessBusy s { s with cmd := v, pend := true }
  | .ilen => unlessBusy s { s with ilen := v.extractLsb' 0 9 }
  | .ibuf w => unlessBusy s { s with mem := s.mem.storeWord (ibufBase + 4 * w) v }
  | .status => if v.getLsbD 2 then { s with ovr := false } else s
  | .id => s
  | .olen => s
  | .result => s
  | .config => s
  | .obuf _ => s
  | .reserved => s

/-- A host read: the block's state stays, the host gets the word (R56, R90). -/
def hostRead (s : State) (a : PortAddr) (expected : Option Word) : State :=
  { s with reads := s.reads ++ [⟨a, memRead s a, expected⟩] }

/-- How many words hold `n` bytes: `ceil(n/4)` (R91, R94). -/
def wordCount (n : Nat) : Nat := (n + 3) / 4

/-- The reads of `readout` after OLEN: `rd OBUF+4w` for `w` in `0 .. ceil(OLEN/4)−1` (R94). -/
def readoutOps (olen : Nat) : List HostOp :=
  (List.range (wordCount olen)).map fun w => .rd (portAddr (obufBase + 4 * w))

/-- The host's next move, if it has one: the first operation of its list (R63). `poll` stays in
the list while the STATUS it read says BUSY (R93). -/
def hostMove (s : State) : State :=
  match s.hostOps with
  | [] => s
  | .wr a v :: rest => memWrite { s with hostOps := rest } a v
  | .rd a :: rest => hostRead { s with hostOps := rest } a none
  | .rdEq a v :: rest => hostRead { s with hostOps := rest } a (some v)
  | .poll :: rest =>
    if (memRead s (portAddr 0x008)).getLsbD 0 then hostRead s (portAddr 0x008) none
    else hostRead { s with hostOps := rest } (portAddr 0x008) none
  | .readout :: rest =>
    hostRead { s with hostOps := readoutOps s.olen.toNat ++ rest } (portAddr 0x010) none
  | .driveKey k :: rest => { s with hostOps := rest, keyIn := k }
  | .reset :: rest => resetEvent { s with hostOps := rest }

/-- Whether a read returned what the program expects there, if it says (R90). -/
def PortRead.met (r : PortRead) : Bool :=
  match r.expected with
  | none => true
  | some v => r.value == v

/-- What `readout` yields: `OBUF[0..OLEN)`, unpacked from the words its reads returned (R94). -/
def readoutBytes (olen : Word) (words : List Word) : List Byte :=
  (words.flatMap wordBytes).take olen.toNat

end Sys2Proof.Machine
end

