-- ==== Sys2Proof/Machine/Step.lean ====
section
/-! DEFINITION. One step: one turn of one agent (spec 20_memory.md R63 to R65). -/

namespace Sys2Proof.Machine

/-- The command step (R65): the command word in CMD by the rule for its opcode; a word that is no
command raises ILLEGAL_COMMAND (R202). -/
def commandStep (s : State) : Host.Outcome State Fault Refusal :=
  match decode s.cmd with
  | .ok i => exec i s
  | .error _ => .next (raiseErr .illegalCommand s)

/-- The engine's turn: the build step "is enabled exactly when PHASE = CONSTRUCTING", the command step
"exactly when PHASE = READY and PEND = 1" (R65); with neither enabled nothing happens (log 9). -/
def engineStep (s : State) : Host.Outcome State Fault Refusal :=
  match s.phase with
  | .constructing => .next (buildTables s)
  | .ready => if s.pend then commandStep s else .next s

/-- Whose turn it is: the first of the listed turns. With none listed it is the engine's while BUSY
is 1 and the host's otherwise, so that an enabled engine step is always taken in the end
(R239; log 6). -/
def nextAgent (s : State) : Agent :=
  match s.turns with
  | a :: _ => a
  | [] => if s.busy then .engine else .host

/-- The state with the listed turn used up. -/
def State.popTurn (s : State) : State := { s with turns := s.turns.tail }

/-- One step of the whole: the agent whose turn it is moves, and the move is indivisible (R64). -/
def step (s : State) : Host.Outcome State Fault Refusal :=
  match nextAgent s with
  | .engine => engineStep s.popTurn
  | .host => .next (hostMove s.popTurn)

/-- The state with a command word in CMD and accepted, the tables built, and the engine's turn next:
the very next step runs that command (log 8). -/
def State.withFetchWord (s : State) (nbits w : Nat) : State :=
  { s with cmd := tableWord nbits w, pend := true, phase := .ready, turns := .engine :: s.turns }

end Sys2Proof.Machine
end

