-- ==== Sys2Proof/Machine/HostAdapter.lean ====
section
/-! DEFINITION. The host adapter (spec 44_host_adapter.md): strings to bytes and back, and the
operations the host makes of them (R91, R92, R235). A string is a list of characters. Errors use the
block's table of codes (60_exceptions.md R200). -/

namespace Sys2Proof.Machine

/-- The value of a hexadecimal digit, either case (R190; 93_implementation_defined.md I3). -/
def hexval (c : Char) : Option Nat :=
  let n := c.toNat
  if 48 ≤ n ∧ n ≤ 57 then some (n - 48)
  else if 97 ≤ n ∧ n ≤ 102 then some (n - 87)
  else if 65 ≤ n ∧ n ≤ 70 then some (n - 55)
  else none

/-- The digit values of a string; none if some character is not a hexadecimal digit. -/
def hexvals : List Char → Option (List Nat)
  | [] => some []
  | c :: rest =>
    match hexval c, hexvals rest with
    | some d, some ds => some (d :: ds)
    | _, _ => none

/-- Digits read big-endian: `Σ d_j · 16^(n−1−j)` (R190). -/
def digitsValue (ds : List Nat) : Nat := ds.foldl (fun acc d => 16 * acc + d) 0

/-- KeyParse (R190), and MALFORMED_KEY for a string that is not exactly 16 hexadecimal characters
(R191). -/
def keyParse (s : List Char) : Except ErrCode Key :=
  match hexvals s with
  | some ds => if s.length = 16 then .ok (BitVec.ofNat 64 (digitsValue ds)) else .error .malformedKey
  | none => .error .malformedKey

/-- The lowercase character of a digit value (R192, I3). -/
def hexChar (d : Nat) : Char := if d < 10 then Char.ofNat (48 + d) else Char.ofNat (87 + d)

/-- `hex2(b)`: the high nibble, then the low nibble (R192). -/
def hex2 (b : Byte) : List Char := [hexChar (b.toNat / 16), hexChar (b.toNat % 16)]

/-- `hex(s)` (R192). -/
def hex (s : List Byte) : List Char := s.flatMap hex2

/-- Digit pairs to bytes, the high nibble first (R193). -/
def pairBytes : List Nat → List Byte
  | h :: l :: rest => BitVec.ofNat 8 (16 * h + l) :: pairBytes rest
  | _ => []

/-- An odd number of digits gets one '0' appended (R193). -/
def evenDigits (ds : List Nat) : List Nat := if ds.length % 2 = 0 then ds else ds ++ [0]

/-- CipherParse (R193): its checks in their order. -/
def cipherParse (t : List Char) : Except ErrCode (List Byte) :=
  match hexvals t with
  | none => .error .malformedCiphertext
  | some ds =>
    let bytes := pairBytes (evenDigits ds)
    if bufSize < bytes.length then .error .badArgument else .ok bytes

/-- CipherFormat (R194). -/
def cipherFormat (s : State) : List Char := hex s.output

/-- The byte at an offset, 0x00 at and beyond the end (R91). -/
def byteOrZero (s : List Byte) (j : Nat) : Byte := s.getD j 0#8

/-- IBUF word `w` of a byte string (R91). -/
def inputWord (s : List Byte) (w : Nat) : Word :=
  packWord (byteOrZero s (4 * w)) (byteOrZero s (4 * w + 1)) (byteOrZero s (4 * w + 2))
    (byteOrZero s (4 * w + 3))

/-- The pseudo-operation `load <bytes>` (R91), for a string of at most 264 bytes. -/
def loadOps (s : List Byte) : List HostOp :=
  (List.range (wordCount s.length)).map
      (fun w => .wr (portAddr (ibufBase + 4 * w)) (inputWord s w)) ++
    [.wr (portAddr 0x00C) (BitVec.ofNat 32 s.length)]

/-- The pseudo-operation `cmd <mnemonic> [operands]` (R92). -/
def cmdOps (i : Instr) : List HostOp := [.wr (portAddr 0x004) (encode i), .poll]

/-- Step 4 of the boot order, "Optionally clear OVR" (R235): the STATUS write, or nothing. -/
def clearOvrOps (clearOvr : Bool) : List HostOp :=
  if clearOvr then [.wr (portAddr 0x008) 0x4#32] else []

/-- The host's boot order, steps 1 to 4 (R235): validate the key string, present the key, assert reset,
poll until the block is ready (log 21), and clear OVR if `clearOvr` says so. Whether the host takes the
optional step is left to the host: both forms are modelled. A malformed key is reported and nothing is
done (R191). -/
def bootOps (clearOvr : Bool) (keyString : List Char) : Except ErrCode (List HostOp) :=
  match keyParse keyString with
  | .error e => .error e
  | .ok k => .ok ([.driveKey k, .reset, .poll] ++ clearOvrOps clearOvr)

/-- Encrypting a message at the adapter: a message of more than 255 bytes is refused with
BAD_ARGUMENT (R196; log 14), any other is loaded, encrypted and read out. -/
def encryptOps (m : List Byte) : Except ErrCode (List HostOp) :=
  if maxMessageBytes < m.length then .error .badArgument
  else .ok (loadOps m ++ cmdOps .encrypt ++ [.readout])
where
  /-- The longest message (R152, R196). -/
  maxMessageBytes : Nat := 255

/-- Decrypting a ciphertext string at the adapter (R193, R195): a string that CipherParse refuses is
reported and nothing is loaded. -/
def decryptOps (t : List Char) : Except ErrCode (List HostOp) :=
  match cipherParse t with
  | .error e => .error e
  | .ok c => .ok (loadOps c ++ cmdOps .decrypt ++ [.readout])

end Sys2Proof.Machine
end

