-- ==== Sys2Proof/Machine/Assembler.lean ====
section
/-! DEFINITION. The assembler and the syntax of host programs (spec 30_encoding.md R89 to R94).
Text is a list of characters. -/

namespace Sys2Proof.Machine

/-- Why a line of assembly gives no word (R89). -/
inductive AsmError where
  | unknownMnemonic
  | operandCount
  | operandRange
deriving DecidableEq, Repr

/-- The commands that take no operand, by mnemonic (R89). -/
def zCommand (m : List Char) : Option Instr :=
  if m = "NOP".toList then some .nop
  else if m = "ENCBLK".toList then some .encblk
  else if m = "DECBLK".toList then some .decblk
  else if m = "XORKS".toList then some .xorks
  else if m = "CSUM".toList then some .csum
  else if m = "FRAME".toList then some .frame
  else if m = "UNFRAME".toList then some .unframe
  else if m = "ENCRYPT".toList then some .encrypt
  else if m = "DECRYPT".toList then some .decrypt
  else none

/-- The command of one 24-bit operand with this mnemonic, if there is one (R89). -/
def immCommand (m : List Char) (imm : Word24) : Option Instr :=
  if m = "RDFWD".toList then some (.rdfwd imm)
  else if m = "RDINV".toList then some (.rdinv imm)
  else if m = "GETORIG".toList then some (.getorig imm)
  else none

/-- The operands of a one-number command (R89). -/
def assembleImm (m : List Char) (operands : List Nat) : Except AsmError Instr :=
  match operands with
  | [n] =>
    match immCommand m (BitVec.ofNat 24 n) with
    | some i => if n < 2 ^ 24 then .ok i else .error .operandRange
    | none => .error .unknownMnemonic
  | _ => .error .operandCount

/-- `GETCODE <x>, <y>, <z>` (R89). -/
def assembleGetcode (operands : List Nat) : Except AsmError Instr :=
  match operands with
  | [x, y, z] =>
    if x < 2 ^ 8 ∧ y < 2 ^ 8 ∧ z < 2 ^ 8 then
      .ok (.getcode (BitVec.ofNat 8 x) (BitVec.ofNat 8 y) (BitVec.ofNat 8 z))
    else .error .operandRange
  | _ => .error .operandCount

/-- The command a line of assembly spells (R89). Its word is `encode` of it. -/
def assemble (l : AsmLine) : Except AsmError Instr :=
  match zCommand l.mnemonic with
  | some i => if l.operands = [] then .ok i else .error .operandCount
  | none =>
    if (immCommand l.mnemonic 0#24).isSome then assembleImm l.mnemonic l.operands
    else if l.mnemonic = "GETCODE".toList then assembleGetcode l.operands
    else .error .unknownMnemonic

/-! Text (R89, R90; log 19). -/

/-- Text without the blanks at its ends. -/
def trimBlanks (t : List Char) : List Char :=
  ((t.dropWhile (· == ' ')).reverse.dropWhile (· == ' ')).reverse

/-- Text without its trailing `--` comment. R89 and R90 do not say that a line may carry one; the
programs of 95_test_vectors.md do. DESIGN CHOICE: the model accepts and ignores it (log 19). -/
def stripComment : List Char → List Char
  | [] => []
  | '-' :: '-' :: _ => []
  | c :: rest => c :: stripComment rest

/-- The first word of a text. -/
def firstWord (t : List Char) : List Char := (trimBlanks t).takeWhile (· != ' ')

/-- What follows the first word. -/
def afterFirstWord (t : List Char) : List Char :=
  trimBlanks ((trimBlanks t).dropWhile (· != ' '))

/-- The decimal value of a digit. -/
def decval (c : Char) : Option Nat :=
  if 48 ≤ c.toNat ∧ c.toNat ≤ 57 then some (c.toNat - 48) else none

/-- The decimal digit values of a text; none if some character is no digit. -/
def decvals : List Char → Option (List Nat)
  | [] => some []
  | c :: rest =>
    match decval c, decvals rest with
    | some d, some ds => some (d :: ds)
    | _, _ => none

/-- A number: decimal, or hexadecimal after `0x` (R89). -/
def parseNumber (t : List Char) : Option Nat :=
  match t with
  | [] => none
  | '0' :: 'x' :: h :: rest => (hexvals (h :: rest)).map digitsValue
  | c :: rest => (decvals (c :: rest)).map fun ds => ds.foldl (fun acc d => 10 * acc + d) 0

/-- Numbers separated by commas (R89). -/
def parseNumbers (t : List Char) : Option (List Nat) :=
  if trimBlanks t = [] then some []
  else (t.splitOn ',').mapM fun part => parseNumber (trimBlanks part)

/-- A line of assembly as text (R89), with or without a comment (log 19). -/
def parseAsmLine (t : List Char) : Option AsmLine :=
  let code := stripComment t
  (parseNumbers (afterFirstWord code)).map fun ns => ⟨firstWord code, ns⟩

/-- The word a line of assembly text spells, if it spells one (R89). -/
def assembleText (t : List Char) : Option Word :=
  match parseAsmLine t with
  | none => none
  | some l =>
    match assemble l with
    | .ok i => some (encode i)
    | .error _ => none

/-- A byte offset that names a port word: a multiple of 4 inside the 4 KiB window (R51, R53). -/
def wordOffset (n : Nat) : Option PortAddr :=
  if n % 4 = 0 ∧ n < 4096 then some (portAddr n) else none

/-- `IBUF+4w` and `OBUF+4w`, with `w` at most 65 (R90). -/
def bufferOffset (base : Nat) (t : List Char) : Option PortAddr :=
  match parseNumber t with
  | none => none
  | some k => if k % 4 = 0 ∧ k ≤ 4 * 65 then some (portAddr (base + k)) else none

/-- An offset in a host program: a register's name or a number (R90). -/
def parseOffset (t : List Char) : Option PortAddr :=
  if t = "ID".toList then some (portAddr 0x000)
  else if t = "CMD".toList then some (portAddr 0x004)
  else if t = "STATUS".toList then some (portAddr 0x008)
  else if t = "ILEN".toList then some (portAddr 0x00C)
  else if t = "OLEN".toList then some (portAddr 0x010)
  else if t = "RESULT".toList then some (portAddr 0x014)
  else if t = "CONFIG".toList then some (portAddr 0x018)
  else if t.take 5 = "IBUF+".toList then bufferOffset ibufBase (t.drop 5)
  else if t.take 5 = "OBUF+".toList then bufferOffset obufBase (t.drop 5)
  else (parseNumber t).bind wordOffset

/-- A 32-bit value in a host program (R90). -/
def parseValue (t : List Char) : Option Word :=
  match parseNumber t with
  | none => none
  | some n => if n < 2 ^ 32 then some (BitVec.ofNat 32 n) else none

/-- `wr <offset>, <value32>` (R90). -/
def parseWr (t : List Char) : Option HostOp :=
  match t.splitOn ',' with
  | [o, v] =>
    match parseOffset (trimBlanks o), parseValue (trimBlanks v) with
    | some a, some w => some (.wr a w)
    | _, _ => none
  | _ => none

/-- `rd <offset>` and `rd <offset> == <value32>` (R90). -/
def parseRd (t : List Char) : Option HostOp :=
  match t.dropWhile (· != '=') with
  | [] => (parseOffset (trimBlanks t)).map .rd
  | '=' :: '=' :: v =>
    match parseOffset (trimBlanks (t.takeWhile (· != '='))), parseValue (trimBlanks v) with
    | some a, some w => some (.rdEq a w)
    | _, _ => none
  | _ => none

/-- The operations a line of a host program without a comment stands for (R90, R92 to R94). `load` is
given by `loadOps`, because the spec writes its byte string in no fixed text form (log 19). -/
def parseHostCode (t : List Char) : Option (List HostOp) :=
  let rest := afterFirstWord t
  if firstWord t = "wr".toList then (parseWr rest).map fun op => [op]
  else if firstWord t = "rd".toList then (parseRd rest).map fun op => [op]
  else if firstWord t = "cmd".toList then
    (assembleText rest).map fun w => [.wr (portAddr 0x004) w, .poll]
  else if trimBlanks t = "poll".toList then some [.poll]
  else if trimBlanks t = "readout".toList then some [.readout]
  else none

/-- The operations a line of a host program stands for. DESIGN CHOICE (log 19): a trailing `--` comment
is ignored, and a line with nothing else on it stands for no operation. -/
def parseHostLine (t : List Char) : Option (List HostOp) :=
  let code := stripComment t
  if trimBlanks code = [] then some [] else parseHostCode code

end Sys2Proof.Machine
end

