-- ==== Sys2Proof/Machine/SourceStrings.lean ====
section
/-! DEFINITION. The source's functions on hex strings, as the spec quotes them: StreamXOR.apply
(spec 41_stream_xor.md R140, R141, R144) and the codec's encrypt and decrypt (43_codec.md R171, R177).
No command uses them: they are what R144 and R195 say the byte-level functions agree with. The source
does not say what becomes of a character that is no hexadecimal digit (91_not_in_source.md N13); that
each function answers all the same, from an open integer, is the model's choice (log 22). -/

namespace Sys2Proof.Machine

/-- "Extend ... on the right with '0' characters" "until its length is a multiple of 16" (R141). -/
def srcPad (h : List Char) : List Char :=
  h ++ List.replicate (16 * ((h.length + 15) / 16) - h.length) '0'

/-- A chunk read as a big-endian hex integer (R140, R104). DESIGN CHOICE (log 22): a chunk with a
character that is no hexadecimal digit reads as the open `Config.nonHexInt` of it, because the spec
gives it no value (91_not_in_source.md N13; D25 decides for the adapter's CipherParse alone). -/
def srcHexInt (chunk : List Char) : Nat :=
  match hexvals chunk with
  | some ds => digitsValue ds
  | none => Config.nonHexInt chunk

/-- A chunk parsed "as a big-endian 64-bit hex integer" (R140); one that is not hexadecimal by the
model's choice in `srcHexInt` (log 22). -/
def srcParse (chunk : List Char) : Key := BitVec.ofNat 64 (srcHexInt chunk)

/-- "format back as a 16-character lowercase hex string" (R140). -/
def srcFormat (v : Key) : List Char :=
  (List.range 16).map fun j => hexChar (v.toNat / 16 ^ (15 - j) % 16)

/-- The first `n` 16-character chunks, each XORed with the key (R140). -/
def srcChunks (key : Key) : Nat → List Char → List Char
  | 0, _ => []
  | n + 1, h => srcFormat (srcParse (h.take 16) ^^^ key) ++ srcChunks key n (h.drop 16)

/-- `StreamXOR.apply(H, key)` (R140, R141, R144). R144 speaks of hex strings; on any other string the
result rests on log 22. -/
def srcStreamXor (key : Key) (h : List Char) : List Char :=
  srcChunks key ((srcPad h).length / 16) (srcPad h)

/-- The hash string: "For each consecutive 3-byte group (b0,b1,b2) of bytes", getCode's
6-hex-character rendering (R103, R106). -/
def srcHashString (p : Perm24) : List Byte → List Char
  | b0 :: b1 :: b2 :: rest =>
    let code := p (blockIndex b0 b1 b2)
    hex2 (byteLo code) ++ hex2 (byteMid code) ++ hex2 (byteHi code) ++ srcHashString p rest
  | _ => []

/-- The source's `encrypt(message, key)` (R171). -/
def srcEncrypt (p : Perm24) (key : Key) (m : List Byte) : List Char :=
  srcStreamXor key (srcHashString p (frame m))

/-- The first `n` groups of 6 characters, "parse each as a 24-bit big-endian hex integer" (R104); a
group that is not hexadecimal as in `srcHexInt` (log 22). -/
def srcGroupInts : Nat → List Char → List Word24
  | 0, _ => []
  | n + 1, h =>
    BitVec.ofNat 24 (srcHexInt (h.take 6)) :: srcGroupInts n (h.drop 6)

/-- "Process hashString in consecutive 6-character groups (discard any trailing partial group shorter
than 6 characters)" (R107), each through getOriginal (R104), under the instance's policy (R176). -/
def srcWorkingBuffer (policy : DecodePolicy) (p : Perm24) (h : List Char) : List Byte :=
  let gs := srcGroupInts (h.length / 6) h
  match policy with
  | .literal => gs.flatMap (getOriginal p)
  | .frameBounded =>
    match gs with
    | [] => []
    | g :: rest =>
      match getOriginal p g with
      | [] => []
      | l :: _ => ((g :: rest).take (frameBlocks l.toNat)).flatMap (getOriginal p)

/-- The source's `decrypt(ciphertext, key)` (R177). -/
def srcDecrypt (policy : DecodePolicy) (p : Perm24) (key : Key) (t : List Char) :
    Except ErrCode (List Byte) :=
  unframe (srcWorkingBuffer policy p (srcStreamXor key t))

end Sys2Proof.Machine
end

