-- ==== Sys2Proof/Safety.lean ====
section
/-! DEFINITION. What a good state is, and the words the claims use for what a command leaves
(spec 10_state.md, 60_exceptions.md R204 to R206, 70_reset_and_hazards.md R234). -/

namespace Sys2Proof.Machine

/-- A byte offset of the port space that lies in IBUF or in OBUF (R28, R29, R51). -/
def inBuffers (a : Nat) : Prop :=
  (ibufBase ≤ a ∧ a < ibufBase + bufSize) ∨ (obufBase ≤ a ∧ a < obufBase + bufSize)

/-- The invariant of a good state: memory is in its canonical form and lists bytes of the two buffers
only; OLEN is in 0..264 (R25); ERR is a code the block may produce (R200); a command is pending only
when PHASE is READY (R34, R65); and while PHASE is CONSTRUCTING every register and buffer but OVR still
has its reset value, because writes are blocked (R234, R236). -/
structure State.Inv (s : State) : Prop where
  memWF : Memory.wf s.mem
  memInBuffers : ∀ c ∈ s.mem, inBuffers c.1
  olenFits : s.olen.toNat ≤ bufSize
  errOfBlock : s.err.ofBlock = true
  pendOnlyReady : s.pend = true → s.phase = .ready
  constructingClean : s.phase = .constructing →
    s.cmd = 0#32 ∧ s.err = .ok ∧ s.ilen = 0#9 ∧ s.olen = 0#9 ∧ s.result = 0#24 ∧ s.mem = []

/-- `t` is `s` after the success commit of an output string and a value of RESULT (R205):
`OBUF[0 .. len(out))` holds the string, OLEN its length, ERR is OK and PEND 0; every other byte of the
port space reads as before, and every other field is as in `s`. -/
structure CommitsString (out : List Byte) (result : Word24) (s t : State) : Prop where
  olen : t.olen.toNat = out.length
  bytes : ∀ j < out.length, t.obuf j = out.getD j 0#8
  others : ∀ a, ¬(obufBase ≤ a ∧ a < obufBase + out.length) → t.mem.read a = s.mem.read a
  rest : t = { s with
    mem := t.mem, olen := t.olen, result := result, err := .ok, pend := false }

/-- `s` after the error commit, field by field (R204). -/
def afterError (code : ErrCode) (s : State) : State :=
  { s with err := code, olen := 0#9, result := 0#24, pend := false }

/-- The string commands whose output is a byte string in OBUF. -/
def writesObuf : Instr → Bool
  | .getcode _ _ _ => true
  | .getorig _ => true
  | .encblk => true
  | .decblk => true
  | .xorks => true
  | .frame => true
  | .unframe => true
  | .encrypt => true
  | .decrypt => true
  | .nop => false
  | .rdfwd _ => false
  | .rdinv _ => false
  | .csum => false

/-- The commands that may write RESULT on success (R26). -/
def writesResult : Instr → Bool
  | .rdfwd _ => true
  | .rdinv _ => true
  | .getcode _ _ _ => true
  | .getorig _ => true
  | .csum => true
  | .nop => false
  | .encblk => false
  | .decblk => false
  | .xorks => false
  | .frame => false
  | .unframe => false
  | .encrypt => false
  | .decrypt => false

end Sys2Proof.Machine
end

