-- ==== Sys2Proof/Certificates/Slice0/Obligations.lean ====
section
/-! DEFINITION. The statements for the provers, from the numbered rules of the spec. Each docstring
names the rules; `log n` is an entry of notes/assumptions. `CommitsString`, `afterError` and
`State.Inv` are in Sys2Proof/Safety.lean. -/

open Sys2Proof Sys2Proof.Machine

/-! Encoding (30_encoding.md). -/

/-- R80 to R82: for every command, decoding its word gives the command back, with every operand; and a
word that decodes to a command is that command's word, so no bit of a legal word is dropped. -/
def Obligations.DecodeAndEncodeAgree : Prop :=
  (∀ i : Instr, decode (encode i) = .ok i) ∧
  ∀ (w : Word) (i : Instr), decode w = .ok i → encode i = w

/-- R83: the match and mask of each form, and no word in two rows; the table's rows are exactly the
words that decode. -/
def Obligations.EveryWordMatchesAtMostOneRow : Prop :=
  ∀ w : Word,
    (∀ op : Byte, op.toNat ∈ [1, 2, 3, 4] →
      (w &&& 0x000000FF#32 = op.setWidth 32 ↔ ∃ i, decode w = .ok i ∧ opcodeOf i = op)) ∧
    (∀ op : Byte, op.toNat ∈ [0, 5, 6, 7, 8, 9, 10, 11, 12] →
      (w = op.setWidth 32 ↔ ∃ i, decode w = .ok i ∧ opcodeOf i = op)) ∧
    (∀ r₁ ∈ opcodeRows, ∀ r₂ ∈ opcodeRows,
      r₁.matches w = true → r₂.matches w = true → r₁ = r₂) ∧
    (commandWordWF w = true ↔ ∃ i, decode w = .ok i)

/-- R84, R85, R202: the thirteen opcodes 0x00..0x0C are assigned and no other; a word with another
opcode, or a Z-form word with IMM not zero, is accepted into CMD like any other, and its command step
does only the error commit of ILLEGAL_COMMAND. -/
def Obligations.IllegalWordsRaiseIllegalCommand : Prop :=
  (∀ op : Byte, (∃ i, opcodeOf i = op) ↔ op.toNat < 0x0D) ∧
  ∀ (s : State) (w : Word),
    (0x0D ≤ (opField w).toNat ∨ ((opField w).toNat ∉ [1, 2, 3, 4] ∧ immField w ≠ 0#24)) →
    (∀ i, decode w ≠ .ok i) ∧
    (s.busy = false →
      memWrite s (portAddr 0x004) w = { s with cmd := w, pend := true } ∧
      (memWrite s (portAddr 0x004) w).busy = true) ∧
    (s.phase = .ready → s.pend = true → s.cmd = w →
      engineStep s =
        .next { s with err := .illegalCommand, olen := 0#9, result := 0#24, pend := false } ∧
      (afterError .illegalCommand s).busy = false)

/-- R82, R89: words written out from the spec's encoding, one of each form at least, decode to the
commands they stand for. -/
def Obligations.SpecWordsDecodeAsWritten : Prop :=
  decode 0x00000000#32 = .ok .nop ∧
  decode 0xFFFFFF01#32 = .ok (.rdfwd 0xFFFFFF#24) ∧
  decode 0x12345702#32 = .ok (.rdinv 0x123457#24) ∧
  decode 0x6C654803#32 = .ok (.getcode 0x48#8 0x65#8 0x6C#8) ∧
  decode 0xBF2E3004#32 = .ok (.getorig 0xBF2E30#24) ∧
  decode 0x00000005#32 = .ok .encblk ∧
  decode 0x00000007#32 = .ok .xorks ∧
  decode 0x00000009#32 = .ok .frame ∧
  decode 0x0000000C#32 = .ok .decrypt ∧
  decode 0x0000000D#32 = .error (.unassignedOpcode 0x0D#8) ∧
  decode 0x00000105#32 = .error (.reservedOperand 0x05#8 0x000001#24)

/-- R89: the assembler accepts exactly the well-formed lines; each mnemonic spells the command of its row
in R82, and the word it gives carries the operands as R81 and R89 place them. -/
def Obligations.AssemblerAcceptsExactlyWellFormedLines : Prop :=
  (∀ l : AsmLine, (∃ i, assemble l = .ok i) ↔ l.wf = true) ∧
  (assemble ⟨"NOP".toList, []⟩ = .ok .nop ∧ assemble ⟨"ENCBLK".toList, []⟩ = .ok .encblk ∧
    assemble ⟨"DECBLK".toList, []⟩ = .ok .decblk ∧ assemble ⟨"XORKS".toList, []⟩ = .ok .xorks ∧
    assemble ⟨"CSUM".toList, []⟩ = .ok .csum ∧ assemble ⟨"FRAME".toList, []⟩ = .ok .frame ∧
    assemble ⟨"UNFRAME".toList, []⟩ = .ok .unframe ∧
    assemble ⟨"ENCRYPT".toList, []⟩ = .ok .encrypt ∧
    assemble ⟨"DECRYPT".toList, []⟩ = .ok .decrypt) ∧
  (∀ n < 2 ^ 24,
    assemble ⟨"RDFWD".toList, [n]⟩ = .ok (.rdfwd (BitVec.ofNat 24 n)) ∧
    assemble ⟨"RDINV".toList, [n]⟩ = .ok (.rdinv (BitVec.ofNat 24 n)) ∧
    assemble ⟨"GETORIG".toList, [n]⟩ = .ok (.getorig (BitVec.ofNat 24 n))) ∧
  (∀ x < 2 ^ 8, ∀ y < 2 ^ 8, ∀ z < 2 ^ 8, ∃ i, assemble ⟨"GETCODE".toList, [x, y, z]⟩ = .ok i ∧
    (encode i).toNat = ((z * 65536 + y * 256 + x) * 256 + 3))

/-! The step, the life cycle and reset (20_memory.md, 10_state.md, 70_reset_and_hazards.md). -/

/-- R65: on the engine's turn, with PHASE READY and a command pending whose word decodes, the step is
that command's `exec` on the state with the listed turn used up; and a word placed by `withFetchWord`
is run by the very next step (log 8). -/
def Obligations.StepRunsTheDecodedCommand : Prop :=
  (∀ (s : State) (i : Instr), nextAgent s = .engine → s.phase = .ready → s.pend = true →
    decode s.cmd = .ok i → step s = exec i { s with turns := s.turns.tail }) ∧
  (∀ (s : State) (w : Nat) (i : Instr), decode (tableWord 32 w) = .ok i →
    step (s.withFetchWord 32 w) =
      exec i { s with cmd := tableWord 32 w, pend := true, phase := .ready })

/-- The block never stops: from every state the next step answers a next state, and on every state every
command does. R206 and R207 say so of errors; that nothing else stops it either is the model's reading
(log 10, DEDUCED), and that a turn with nothing to do is a step with a next state is the model's choice
(log 9, DESIGN CHOICE). -/
def Obligations.EveryStepAnswersANextState : Prop :=
  (∀ s : State, ∃ t, step s = .next t) ∧ ∀ (i : Instr) (s : State), ∃ t, exec i s = .next t

/-- R232, R234: on the engine's turn in construction, the step is the build: PHASE becomes READY and
nothing else changes, the tables are those of KEY, and the state is the clean-entry state with its
STATUS. The premise `Inv` is the invariant that `EveryStepKeepsTheInvariant` states. -/
def Obligations.BuildStepGivesTheCleanEntryState : Prop :=
  ∀ s : State, s.Inv → s.phase = .constructing → nextAgent s = .engine →
    ∃ t, step s = .next t ∧ t = { s with turns := s.turns.tail, phase := .ready } ∧
      (∀ i, t.fwd i = t.perm i ∧ t.inv (t.perm i) = i) ∧
      (t.tables = .keyed → t.perm = Config.permOf t.key) ∧
      t.pend = false ∧ t.cmd = 0#32 ∧ t.err = .ok ∧ t.ilen = 0#9 ∧ t.olen = 0#9 ∧
      t.result = 0#24 ∧ (∀ j < 264, t.ibuf j = 0x00#8 ∧ t.obuf j = 0x00#8) ∧
      memRead t (portAddr 0x008) = (if s.ovr then 0x00000006#32 else 0x00000002#32)

/-- R38: what reset leaves, with the constants ID and CONFIG. The last clause, about FWD and INV, is of
the state before the build step, which R38 does not speak of: it rests on R33's allowance (log 1,
DEDUCED). (KEY stands on the pins: `keyIn` is the level on `key_in`; the policy, the
tables and the empty lists of `State.reset` are the model's, logs 2, 3, 6, 7, and not stated here.) -/
def Obligations.ResetStateHoldsTheSpecsValues : Prop :=
  State.reset.cmd = 0#32 ∧ State.reset.ovr = false ∧ State.reset.err = .ok ∧
  State.reset.ilen = 0#9 ∧ State.reset.olen = 0#9 ∧ State.reset.result = 0#24 ∧
  (∀ j < 264, State.reset.ibuf j = 0x00#8 ∧ State.reset.obuf j = 0x00#8) ∧
  State.reset.pend = false ∧ State.reset.phase = .constructing ∧
  State.reset.busy = true ∧ State.reset.ready = false ∧
  State.reset.key = State.reset.keyIn ∧
  memRead State.reset (portAddr 0x000) = 0x53454101#32 ∧
  memRead State.reset (portAddr 0x008) = 0x00000001#32 ∧
  memRead State.reset (portAddr 0x018) =
    (match State.reset.policy with | .frameBounded => 0#32 | .literal => 1#32) ∧
  (State.reset.tables = .keyed →
    ∀ i, State.reset.fwd i = Config.permOf State.reset.key i ∧
      State.reset.inv (Config.permOf State.reset.key i) = i)

/-- R230, R231, R233: the reset event, at any point, gives the reset state whatever went before: a
pending command is discarded with no commit, construction starts again, KEY is what stands on `key_in`,
and STATUS reads 0x00000001. That the instance's parameters, the level on the pins and the host's lists
stay is the model's: log 18 (DEDUCED) for the event, log 7 (DESIGN CHOICE) for the lists and log 6 for the
list of turns. -/
def Obligations.ResetEventGivesTheResetState : Prop :=
  ∀ (s : State) (rest : List HostOp), nextAgent s = .host → s.hostOps = .reset :: rest →
    ∃ t, step s = .next t ∧
      t.cmd = 0#32 ∧ t.ovr = false ∧ t.err = .ok ∧ t.ilen = 0#9 ∧ t.olen = 0#9 ∧
      t.result = 0#24 ∧ (∀ j < 264, t.ibuf j = 0x00#8 ∧ t.obuf j = 0x00#8) ∧ t.mem = [] ∧
      t.pend = false ∧ t.phase = .constructing ∧ t.key = s.keyIn ∧
      memRead t (portAddr 0x008) = 0x00000001#32 ∧
      t.policy = s.policy ∧ t.tables = s.tables ∧ t.keyIn = s.keyIn ∧ t.hostOps = rest ∧
      t.reads = s.reads ∧ t.turns = s.turns.tail

/-- R231: KEY takes the value on `key_in` at the reset event, and at every other time KEY does not
change and what stands on `key_in` is ignored: no other part of the next state depends on it. -/
def Obligations.KeyChangesOnlyAtReset : Prop :=
  ∀ s t : State, step s = .next t →
    (nextAgent s = .host ∧ s.hostOps.head? = some .reset → t.key = s.keyIn) ∧
    (¬(nextAgent s = .host ∧ s.hostOps.head? = some .reset) →
      t.key = s.key ∧
      ∀ k : Key, ∃ t', step { s with keyIn := k } = .next t' ∧ t' = { t with keyIn := t'.keyIn })

/-- R27: CONFIG reads the policy in bit 0 and zero above, a write to it is ignored, and no step changes
the policy. -/
def Obligations.ConfigReportsTheFixedPolicy : Prop :=
  (∀ s : State, memRead s (portAddr 0x018) =
    (match s.policy with | .frameBounded => 0#32 | .literal => 1#32)) ∧
  (∀ (s : State) (v : Word), memWrite s (portAddr 0x018) v = s) ∧
  ∀ s t : State, step s = .next t → t.policy = s.policy

/-- R34: PHASE changes only by the build step (to READY) and by reset (to CONSTRUCTING); PEND rises only
when a CMD write is accepted and falls only at a command step, or by reset; a write to CMD, ILEN or IBUF
while BUSY has no effect on its target and sets OVR; and READY = 1 follows from BUSY = 0. -/
def Obligations.PhaseAndPendChangeOnlyAsStated : Prop :=
  (∀ s t : State, step s = .next t →
    (t.phase ≠ s.phase →
      (nextAgent s = .engine ∧ s.phase = .constructing ∧ t.phase = .ready) ∨
      (nextAgent s = .host ∧ s.hostOps.head? = some .reset ∧ t.phase = .constructing)) ∧
    (s.pend = false → t.pend = true →
      nextAgent s = .host ∧ s.busy = false ∧
      ∃ a v rest, s.hostOps = .wr a v :: rest ∧ portReg a = .cmd ∧ t.cmd = v) ∧
    (s.pend = true → t.pend = false →
      (nextAgent s = .engine ∧ s.phase = .ready) ∨
      (nextAgent s = .host ∧ s.hostOps.head? = some .reset)) ∧
    (nextAgent s = .engine → s.phase = .constructing → t.phase = .ready) ∧
    (nextAgent s = .engine → s.phase = .ready → t.pend = false)) ∧
  (∀ (s : State) (a : PortAddr) (v : Word), s.busy = true →
    (portReg a = .cmd ∨ portReg a = .ilen ∨ ∃ w, portReg a = .ibuf w) →
    memWrite s a v = { s with ovr := true }) ∧
  (∀ s : State, s.busy = false → s.ready = true) ∧
  State.reset.phase = .constructing

/-- R23, R236: OVR is set only by a host write to CMD, ILEN or IBUF made while BUSY = 1, and cleared only
by a host write to STATUS with bit 2 = 1, or by reset. -/
def Obligations.OvrIsStickyAsStated : Prop :=
  ∀ s t : State, step s = .next t →
    (s.ovr = false → t.ovr = true →
      nextAgent s = .host ∧ s.busy = true ∧ ∃ a v rest, s.hostOps = .wr a v :: rest ∧
        (portReg a = .cmd ∨ portReg a = .ilen ∨ ∃ w, portReg a = .ibuf w)) ∧
    (s.ovr = true → t.ovr = false →
      nextAgent s = .host ∧ (s.hostOps.head? = some .reset ∨
        ∃ v rest, s.hostOps = .wr (portAddr 0x008) v :: rest ∧ v.getLsbD 2 = true))

/-- Every step keeps the invariant of Sys2Proof/Safety.lean: memory in its canonical form and in the
buffers only, OLEN in 0..264 (R25), no adapter code in ERR (R200), a command pending only when READY
(R34), and the reset values still in place while CONSTRUCTING (R234). -/
def Obligations.EveryStepKeepsTheInvariant : Prop :=
  ∀ s t : State, s.Inv → step s = .next t → t.Inv

/-- The state after reset meets the invariant. -/
def Obligations.ResetMeetsTheInvariant : Prop := State.reset.Inv

/-- R65, R239: PEND falls, by the command's completion or by a reset that discards it (R233), after at
most one step more than there are listed turns; and where the host's list holds no reset, it falls
because the command step runs: a state is reached in which the command is still pending with the CMD,
input and key it was issued with, it is the engine's turn, and the step is the command step. (That a
turn is the engine's when none is listed and BUSY = 1 is the model's form of the spec's fairness,
log 6.) -/
def Obligations.PendingCommandCompletesUnlessReset : Prop :=
  ∀ s : State, s.phase = .ready → s.pend = true →
    (∃ k ≤ s.turns.length + 1, ∃ t, core.run k s = .next t ∧ t.pend = false) ∧
    (HostOp.reset ∉ s.hostOps →
      ∃ k ≤ s.turns.length, ∃ u t, core.run k s = .next u ∧ nextAgent u = .engine ∧
        u.phase = .ready ∧ u.pend = true ∧ u.cmd = s.cmd ∧ u.input = s.input ∧ u.mem = s.mem ∧
        u.key = s.key ∧ u.policy = s.policy ∧ u.tables = s.tables ∧
        core.run (k + 1) s = .next t ∧
        commandStep { u with turns := u.turns.tail } = .next t ∧ t.pend = false)

/-- R93: `poll` ends: at most two steps after the listed turns, the host has gone past it. The premise
`Inv` is the invariant that `EveryStepKeepsTheInvariant` states. (The default turn is log 6.) -/
def Obligations.PollEnds : Prop :=
  ∀ (s : State) (rest : List HostOp), s.Inv → s.hostOps = .poll :: rest →
    ∃ k ≤ s.turns.length + 2, ∃ t, core.run k s = .next t ∧ t.hostOps = rest ∧
      ∃ r, t.reads.getLast? = some r ∧ r.addr = portAddr 0x008 ∧ r.value.getLsbD 0 = false

/-! The port (20_memory.md). -/

/-- R56, R94: what a read returns, by offset, and that no read changes any state of the block, by whatever
operation the host makes it (`rd`, `rd ==`, `poll`, `readout`): the host's record of what it read grows
by the word, its list goes on, and nothing else changes. A read is served whatever BUSY is. `readout` is
`rd OLEN` and then the reads of the OBUF words that hold OLEN bytes, from which `readoutBytes` gives
`OBUF[0..OLEN)`. The host's list and its record of reads are the model's (log 7, DESIGN CHOICE), and so
are what `rd ==` does with the expected value (R90; log 12, DESIGN CHOICE) and `poll` as one repeated
operation (R93; log 13, DEDUCED). -/
def Obligations.HostReadsReturnTheRegisters : Prop :=
  (∀ s : State,
    memRead s (portAddr 0x000) = 0x53454101#32 ∧
    memRead s (portAddr 0x004) = s.cmd ∧
    memRead s (portAddr 0x008) = BitVec.ofNat 32 (s.err.code.toNat * 256 + s.ovr.toNat * 4 +
      s.ready.toNat * 2 + s.busy.toNat) ∧
    memRead s (portAddr 0x00C) = s.ilen.setWidth 32 ∧
    memRead s (portAddr 0x010) = s.olen.setWidth 32 ∧
    memRead s (portAddr 0x014) = s.result.setWidth 32 ∧
    memRead s (portAddr 0x018) = BitVec.ofNat 32 (if s.policy = .literal then 1 else 0) ∧
    (∀ w ≤ 65,
      memRead s (portAddr (0x100 + 4 * w)) =
        packWord (s.ibuf (4 * w)) (s.ibuf (4 * w + 1)) (s.ibuf (4 * w + 2)) (s.ibuf (4 * w + 3)) ∧
      memRead s (portAddr (0x300 + 4 * w)) =
        packWord (s.obuf (4 * w)) (s.obuf (4 * w + 1)) (s.obuf (4 * w + 2)) (s.obuf (4 * w + 3))) ∧
    (∀ off < 4096, off % 4 = 0 →
      ((0x01C ≤ off ∧ off ≤ 0x0FC) ∨ (0x208 ≤ off ∧ off ≤ 0x2FC) ∨ 0x408 ≤ off) →
      memRead s (portAddr off) = 0#32)) ∧
  (∀ (s : State) (a : PortAddr) (rest : List HostOp), nextAgent s = .host →
    s.hostOps = .rd a :: rest →
    step s = .next { s with
      turns := s.turns.tail, hostOps := rest, reads := s.reads ++ [⟨a, memRead s a, none⟩] }) ∧
  (∀ (s : State) (a : PortAddr) (v : Word) (rest : List HostOp), nextAgent s = .host →
    s.hostOps = .rdEq a v :: rest →
    step s = .next { s with
      turns := s.turns.tail, hostOps := rest, reads := s.reads ++ [⟨a, memRead s a, some v⟩] }) ∧
  (∀ (s : State) (rest : List HostOp), nextAgent s = .host → s.hostOps = .poll :: rest →
    step s = .next { s with
      turns := s.turns.tail, hostOps := if s.busy then .poll :: rest else rest,
      reads := s.reads ++ [⟨portAddr 0x008, memRead s (portAddr 0x008), none⟩] }) ∧
  (∀ (s : State) (rest : List HostOp), nextAgent s = .host → s.hostOps = .readout :: rest →
    step s = .next { s with
      turns := s.turns.tail,
      hostOps := ((List.range ((s.olen.toNat + 3) / 4)).map
        fun w => .rd (portAddr (0x300 + 4 * w))) ++ rest,
      reads := s.reads ++ [⟨portAddr 0x010, memRead s (portAddr 0x010), none⟩] }) ∧
  ∀ s : State, s.olen.toNat ≤ 264 →
    readoutBytes (memRead s (portAddr 0x010))
      ((List.range ((s.olen.toNat + 3) / 4)).map fun w => memRead s (portAddr (0x300 + 4 * w))) =
    s.output

/-- R57, R63, R197: what a write does, by offset, and that the host's turn with `wr` as its next operation
is that write, whatever BUSY is; its turn with a key to present only puts the key on the pins. The premise
that memory is in its canonical form is part of the invariant; it is needed only to say what the bytes of
IBUF read as afterwards. (That the host's operations are a list whose first is taken is the model's,
log 7, and the list of turns log 6.) -/
def Obligations.HostWritesActByOffset : Prop :=
  (∀ (s : State) (a : PortAddr) (v : Word) (rest : List HostOp), nextAgent s = .host →
    s.hostOps = .wr a v :: rest →
    step s = .next (memWrite { s with turns := s.turns.tail, hostOps := rest } a v)) ∧
  (∀ (s : State) (k : Key) (rest : List HostOp), nextAgent s = .host →
    s.hostOps = .driveKey k :: rest →
    step s = .next { s with turns := s.turns.tail, hostOps := rest, keyIn := k }) ∧
  ∀ (s : State) (v : Word), Memory.wf s.mem →
    memWrite s (portAddr 0x004) v =
      (if s.busy then { s with ovr := true } else { s with cmd := v, pend := true }) ∧
    memWrite s (portAddr 0x00C) v =
      (if s.busy then { s with ovr := true } else { s with ilen := BitVec.ofNat 9 (v.toNat % 512) }) ∧
    (∀ w ≤ 65,
      (s.busy = true → memWrite s (portAddr (0x100 + 4 * w)) v = { s with ovr := true }) ∧
      (s.busy = false → ∃ m, memWrite s (portAddr (0x100 + 4 * w)) v = { s with mem := m } ∧
        Memory.wf m ∧
        (m.read (0x100 + 4 * w)).toNat = v.toNat % 256 ∧
        (m.read (0x100 + 4 * w + 1)).toNat = v.toNat / 256 % 256 ∧
        (m.read (0x100 + 4 * w + 2)).toNat = v.toNat / 65536 % 256 ∧
        (m.read (0x100 + 4 * w + 3)).toNat = v.toNat / 16777216 % 256 ∧
        ∀ a, ¬(0x100 + 4 * w ≤ a ∧ a < 0x100 + 4 * w + 4) → m.read a = s.mem.read a)) ∧
    memWrite s (portAddr 0x008) v = (if v.getLsbD 2 then { s with ovr := false } else s) ∧
    (∀ off < 4096, off % 4 = 0 → off ≠ 0x004 → off ≠ 0x008 → off ≠ 0x00C →
      ¬(0x100 ≤ off ∧ off ≤ 0x204) → memWrite s (portAddr off) v = s)

/-- R52: reserved offsets read zero; writes to them, to the read-only registers and to OBUF are ignored,
so they do not set OVR either, even while BUSY. -/
def Obligations.ReservedAndReadOnlyOffsets : Prop :=
  ∀ (s : State) (off : Nat), off < 4096 → off % 4 = 0 →
    (((0x01C ≤ off ∧ off ≤ 0x0FC) ∨ (0x208 ≤ off ∧ off ≤ 0x2FC) ∨ 0x408 ≤ off) →
      memRead s (portAddr off) = 0x00000000#32 ∧ ∀ v, memWrite s (portAddr off) v = s) ∧
    ((off = 0x000 ∨ off = 0x010 ∨ off = 0x014 ∨ off = 0x018 ∨ (0x300 ≤ off ∧ off ≤ 0x404)) →
      ∀ v, memWrite s (portAddr off) v = s)

/-- R54: buffer words are little-endian, in IBUF and OBUF; so the word the host wrote to IBUF is the word
it reads there, and no other IBUF word changes. -/
def Obligations.BufferWordsAreLittleEndian : Prop :=
  (∀ (s : State) (w : Nat), w ≤ 65 → ∀ k < 4,
    (memRead s (portAddr (0x100 + 4 * w))).extractLsb' (8 * k) 8 = s.ibuf (4 * w + k) ∧
    (memRead s (portAddr (0x300 + 4 * w))).extractLsb' (8 * k) 8 = s.obuf (4 * w + k)) ∧
  (∀ (s : State) (w : Nat) (v : Word), Memory.wf s.mem → s.busy = false → w ≤ 65 →
    memRead (memWrite s (portAddr (0x100 + 4 * w)) v) (portAddr (0x100 + 4 * w)) = v ∧
    ∀ u ≤ 65, u ≠ w → memRead (memWrite s (portAddr (0x100 + 4 * w)) v) (portAddr (0x100 + 4 * u)) =
      memRead s (portAddr (0x100 + 4 * u)))

/-- R62: the input a command sees is `IBUF[0..ILEN)` as it stood when its CMD write was accepted: the
accepted write changes no input, and while the command is pending no move of the host but a reset changes
CMD, ILEN or IBUF, nor what the command will commit. -/
def Obligations.InputIsFixedWhilePending : Prop :=
  (∀ (s : State) (v : Word), s.busy = false →
    (memWrite s (portAddr 0x004) v).input = s.input ∧
    (memWrite s (portAddr 0x004) v).cmd = v) ∧
  ∀ s t : State, s.pend = true → nextAgent s = .host → s.hostOps.head? ≠ some .reset →
    step s = .next t →
    t.cmd = s.cmd ∧ t.ilen = s.ilen ∧ t.mem = s.mem ∧ t.input = s.input ∧ t.pend = true ∧
    ∀ (i : Instr) (s' t' : State), exec i s = .next s' → exec i t = .next t' →
      t'.err = s'.err ∧ t'.olen = s'.olen ∧ t'.result = s'.result ∧ t'.mem = s'.mem

/-- R30 to R32, R69, R197: "no host access can read or write" KEY: what a read returns does not depend on
KEY or on the tables, and no port write changes KEY. No step but reset changes FWD or INV, and none
changes which permutation the instance has (the parameter of R8; log 2, DESIGN CHOICE). The build step is
among those steps, though R232 writes both tables there: that it changes neither rests on their being
functions of KEY at every time, which R33 allows (log 1, DEDUCED). -/
def Obligations.NoHostAccessReachesTheKey : Prop :=
  (∀ (s : State) (k : Key) (p : TableParam) (a : PortAddr),
    memRead { s with key := k, tables := p } a = memRead s a) ∧
  (∀ (s : State) (a : PortAddr) (v : Word),
    (memWrite s a v).key = s.key ∧ (memWrite s a v).tables = s.tables) ∧
  ∀ s t : State, step s = .next t → t.tables = s.tables ∧
    (¬(nextAgent s = .host ∧ s.hostOps.head? = some .reset) →
      ∀ i : Word24, t.fwd i = s.fwd i ∧ t.inv i = s.inv i)

/-- R91: running `load <bytes>` on an idle block with no turn listed leaves the bytes as the input: ILEN
is their count and `IBUF[0..ILEN)` are the bytes, the rest of the last word written is 0x00, and every
byte outside the words written, all of OBUF among them, reads as before; no other field changes, and the
host then stands at what follows. -/
def Obligations.LoadLeavesTheBytesAsInput : Prop :=
  ∀ (s : State) (bs : List Byte) (rest : List HostOp), Memory.wf s.mem → s.busy = false →
    s.turns = [] → s.hostOps = loadOps bs ++ rest → bs.length ≤ 264 →
    ∃ t, core.run (loadOps bs).length s = .next t ∧ t.input = bs ∧ t.ilen.toNat = bs.length ∧
      (∀ j, bs.length ≤ j → j < 4 * wordCount bs.length → t.ibuf j = 0x00#8) ∧
      (∀ a, ¬(ibufBase ≤ a ∧ a < ibufBase + 4 * wordCount bs.length) →
        t.mem.read a = s.mem.read a) ∧ Memory.wf t.mem ∧
      t = { s with mem := t.mem, ilen := t.ilen, hostOps := rest }

/-! The commands (40_cube.md to 43_codec.md): what each leaves, and so that it completes. -/

/-- R170: NOP sets only ERR to OK, with PEND; the word 0x00000000 is the only NOP, and OP 0x00 with IMM
not zero is illegal. -/
def Obligations.NopSetsOnlyErr : Prop :=
  (∀ s : State, exec .nop s = .next { s with err := .ok, pend := false }) ∧
  (∀ w : Word, decode w = .ok .nop ↔ w = 0x00000000#32) ∧
  ∀ w : Word, opField w = 0x00#8 → immField w ≠ 0#24 → ∀ s : State, s.phase = .ready →
    s.pend = true → s.cmd = w → engineStep s = .next (afterError .illegalCommand s)

/-- R110: OP 0x01 is RDFWD of IMM. RDFWD puts FWD[i] in RESULT for every i, with ERR = OK; OLEN and OBUF (all of memory) are
unchanged; bits [31:24] of the register read 0. -/
def Obligations.RdfwdReadsTheForwardTable : Prop :=
  (∀ w : Word, opField w = 0x01#8 → decode w = .ok (.rdfwd (immField w))) ∧
  (∀ (s : State) (i : Word24), ∃ t, exec (.rdfwd i) s = .next t ∧
    t = { s with result := s.perm i, err := .ok, pend := false } ∧
    (memRead t (portAddr 0x014)).toNat = (s.perm i).toNat) ∧
  ∀ s : State, s.tables = .testPerm →
    exec (.rdfwd 0x000000#24) s =
      .next { s with result := 0x123457#24, err := .ok, pend := false } ∧
    exec (.rdfwd 0xFFFFFF#24) s =
      .next { s with result := 0x123452#24, err := .ok, pend := false }

/-- R111: OP 0x02 is RDINV of IMM. RDINV puts INV[c] in RESULT, with no byte swap, so that RDINV of what RDFWD i gives returns i;
OLEN and OBUF (all of memory) are unchanged. -/
def Obligations.RdinvReadsTheInverseTable : Prop :=
  (∀ w : Word, opField w = 0x02#8 → decode w = .ok (.rdinv (immField w))) ∧
  (∀ (s : State) (c : Word24),
    exec (.rdinv c) s = .next { s with result := s.perm.symm c, err := .ok, pend := false }) ∧
  (∀ (s t : State) (i : Word24), exec (.rdfwd i) s = .next t →
    exec (.rdinv t.result) t = .next { t with result := i }) ∧
  ∀ s : State, s.tables = .testPerm →
    exec (.rdinv 0x123457#24) s =
      .next { s with result := 0x000000#24, err := .ok, pend := false } ∧
    exec (.rdinv 0x000000#24) s =
      .next { s with result := 0x62C255#24, err := .ok, pend := false }

/-- R112: OP 0x03 is GETCODE of the three bytes of IMM, low first. GETCODE looks its block up with x as the low byte of the index, puts the code in RESULT and
its bytes, low first, in OBUF[0..3), and OLEN is 3; nothing else changes. -/
def Obligations.GetcodeEncodesOneBlock : Prop :=
  (∀ w : Word, opField w = 0x03#8 →
    decode w = .ok (.getcode (w.extractLsb' 8 8) (w.extractLsb' 16 8) (w.extractLsb' 24 8))) ∧
  ∀ (s : State) (x y z : Byte), Memory.wf s.mem →
    ∃ t, exec (.getcode x y z) s = .next t ∧
      ∃ code, code = s.perm (BitVec.ofNat 24 (z.toNat * 65536 + y.toNat * 256 + x.toNat)) ∧
        CommitsString [code.extractLsb' 0 8, code.extractLsb' 8 8, code.extractLsb' 16 8] code s t

/-- R113: OP 0x04 is GETORIG of IMM. GETORIG reads INV at the byte-reversed operand, puts the index in RESULT and its bytes, low
first, in OBUF[0..3), and OLEN is 3; nothing else changes. -/
def Obligations.GetorigDecodesOneBlock : Prop :=
  (∀ w : Word, opField w = 0x04#8 → decode w = .ok (.getorig (immField w))) ∧
  ∀ (s : State) (g : Word24), Memory.wf s.mem →
    ∃ t, exec (.getorig g) s = .next t ∧
      ∃ i, i = s.perm.symm (BitVec.ofNat 24
          (g.toNat % 256 * 65536 + g.toNat / 256 % 256 * 256 + g.toNat / 65536)) ∧
        CommitsString [i.extractLsb' 0 8, i.extractLsb' 8 8, i.extractLsb' 16 8] i s t

/-- R114: the word 0x00000005 is ENCBLK. It commits the encoded input when its length is at most 264 and
a multiple of 3, with OLEN = ILEN, and is BAD_ARGUMENT otherwise. -/
def Obligations.EncblkEncodesTheInput : Prop :=
  decode 0x00000005#32 = .ok .encblk ∧
  ∀ s : State, Memory.wf s.mem →
    (s.ilen.toNat ≤ 264 → s.ilen.toNat % 3 = 0 →
      ∃ t, exec .encblk s = .next t ∧
        CommitsString (encBlocks s.perm s.input) s.result s t ∧ t.olen = s.ilen) ∧
    (264 < s.ilen.toNat ∨ s.ilen.toNat % 3 ≠ 0 →
      exec .encblk s = .next (afterError .badArgument s))

/-- R115: the word 0x00000006 is DECBLK: every complete group of the input, with no frame bound; OLEN is 3·floor(ILEN/3). -/
def Obligations.DecblkDecodesTheInput : Prop :=
  decode 0x00000006#32 = .ok .decblk ∧
  ∀ s : State, Memory.wf s.mem →
    (s.ilen.toNat ≤ 264 →
      ∃ t, exec .decblk s = .next t ∧
        CommitsString (decBlocks s.perm (s.ilen.toNat / 3) s.input) s.result s t ∧
        t.olen.toNat = 3 * (s.ilen.toNat / 3)) ∧
    (264 < s.ilen.toNat → exec .decblk s = .next (afterError .badArgument s))

/-- R143: the word 0x00000007 is XORKS; OLEN is ceil8(ILEN). -/
def Obligations.XorksAppliesTheKeystream : Prop :=
  decode 0x00000007#32 = .ok .xorks ∧
  ∀ s : State, Memory.wf s.mem →
    (s.ilen.toNat ≤ 264 →
      ∃ t, exec .xorks s = .next t ∧ CommitsString (xorStream s.key s.input) s.result s t ∧
        t.olen.toNat = 8 * ((s.ilen.toNat + 7) / 8) ∧ t.olen.toNat ≤ 264) ∧
    (264 < s.ilen.toNat → exec .xorks s = .next (afterError .badArgument s))

/-- R160: the word 0x00000008 is CSUM, which puts the checksum, zero-extended, in RESULT; OLEN and OBUF (all of memory) are
unchanged. -/
def Obligations.CsumReturnsTheChecksum : Prop :=
  decode 0x00000008#32 = .ok .csum ∧
  ∀ s : State,
    (s.ilen.toNat ≤ 264 →
      exec .csum s = .next { s with
        result := BitVec.ofNat 24 (csum s.input).toNat, err := .ok, pend := false }) ∧
    (264 < s.ilen.toNat → exec .csum s = .next (afterError .badArgument s))

/-- R161: the word 0x00000009 is FRAME; OLEN is F(ILEN), in 3..258. -/
def Obligations.FrameFramesTheMessage : Prop :=
  decode 0x00000009#32 = .ok .frame ∧
  ∀ s : State, Memory.wf s.mem →
    (s.ilen.toNat ≤ 255 →
      ∃ t, exec .frame s = .next t ∧ CommitsString (frame s.input) s.result s t ∧
        t.olen.toNat = frameLength s.ilen.toNat ∧ 3 ≤ t.olen.toNat ∧ t.olen.toNat ≤ 258) ∧
    (255 < s.ilen.toNat → exec .frame s = .next (afterError .badArgument s))

/-- R162: the word 0x0000000A is UNFRAME, which commits the extracted message, OLEN being the input's first byte, or raises the first
failing check's code. -/
def Obligations.UnframeExtractsOrFails : Prop :=
  decode 0x0000000A#32 = .ok .unframe ∧
  ∀ s : State, Memory.wf s.mem →
    (∀ orig, s.ilen.toNat ≤ 264 → unframe s.input = .ok orig →
      ∃ t, exec .unframe s = .next t ∧ CommitsString orig s.result s t ∧
        t.olen.toNat = (s.ibuf 0).toNat) ∧
    (∀ e, s.ilen.toNat ≤ 264 → unframe s.input = .error e →
      exec .unframe s = .next (afterError e s) ∧
        (e = .invalidLength ∨ e = .invalidPadding ∨ e = .checksumMismatch)) ∧
    (264 < s.ilen.toNat → exec .unframe s = .next (afterError .badArgument s))

/-- R172: the word 0x0000000B is ENCRYPT, which commits XorStream(EncBlocks(Frame(In))); OLEN is ceil8(F(ILEN)). No error but the
length precondition's. -/
def Obligations.EncryptEncryptsTheMessage : Prop :=
  decode 0x0000000B#32 = .ok .encrypt ∧
  ∀ s : State, Memory.wf s.mem →
    (s.ilen.toNat ≤ 255 →
      ∃ t, exec .encrypt s = .next t ∧
        CommitsString (xorStream s.key (encBlocks s.perm (frame s.input))) s.result s t ∧
        t.olen.toNat = ceil8 (frameLength s.ilen.toNat) ∧ 8 ≤ t.olen.toNat ∧ t.olen.toNat ≤ 264 ∧
        ∀ j, frameLength s.ilen.toNat ≤ j → j < t.olen.toNat → t.obuf j = keyByte s.key (j % 8)) ∧
    (255 < s.ilen.toNat → exec .encrypt s = .next (afterError .badArgument s))

/-- R178: the word 0x0000000C is DECRYPT, which commits the message, or raises the first failing check's code, under the instance's
policy; an empty input is INVALID_LENGTH. -/
def Obligations.DecryptDecryptsOrFails : Prop :=
  decode 0x0000000C#32 = .ok .decrypt ∧
  ∀ s : State, Memory.wf s.mem →
    (∀ orig, s.ilen.toNat ≤ 264 →
      unframe (groups s.policy s.perm (xorStream s.key s.input)) = .ok orig →
      ∃ t, exec .decrypt s = .next t ∧ CommitsString orig s.result s t ∧ t.olen.toNat ≤ 255) ∧
    (∀ e, s.ilen.toNat ≤ 264 →
      unframe (groups s.policy s.perm (xorStream s.key s.input)) = .error e →
      exec .decrypt s = .next (afterError e s) ∧
        (e = .invalidLength ∨ e = .invalidPadding ∨ e = .checksumMismatch)) ∧
    (s.ilen = 0#9 → exec .decrypt s = .next (afterError .invalidLength s)) ∧
    (264 < s.ilen.toNat → exec .decrypt s = .next (afterError .badArgument s))

/-! Frames and commits (60_exceptions.md). -/

/-- R13, R205, R29: what a command leaves unchanged. Whatever it is and however it ends, it changes no
register but OLEN, RESULT, ERR and PEND and no byte outside OBUF (so never IBUF). On success, a command
that produces no string leaves all of memory and OLEN, one that produces a string leaves the bytes of
OBUF from OLEN on, and one that writes no RESULT leaves RESULT. -/
def Obligations.CommandsLeaveTheRestUnchanged : Prop :=
  ∀ (i : Instr) (s t : State), Memory.wf s.mem → exec i s = .next t →
    t = { s with
      mem := t.mem, olen := t.olen, result := t.result, err := t.err, pend := false } ∧
    (∀ a, ¬(obufBase ≤ a ∧ a < obufBase + 264) → t.mem.read a = s.mem.read a) ∧
    (t.err = .ok →
      (writesObuf i = false → t.mem = s.mem ∧ t.olen = s.olen) ∧
      (writesObuf i = true → ∀ a, ¬(obufBase ≤ a ∧ a < obufBase + t.olen.toNat) →
        t.mem.read a = s.mem.read a) ∧
      (writesResult i = false → t.result = s.result))

/-- R204, R206: a command step that fails, of a command or of an illegal word, changes ERR, OLEN, RESULT
and PEND, as the error commit says, and nothing else. -/
def Obligations.FailedCommandChangesNothingElse : Prop :=
  (∀ (i : Instr) (s t : State), exec i s = .next t → t.err ≠ .ok →
    t = { s with err := t.err, olen := 0#9, result := 0#24, pend := false }) ∧
  ∀ s t : State, commandStep s = .next t → t.err ≠ .ok →
    t = { s with err := t.err, olen := 0#9, result := 0#24, pend := false }

/-- R201: a command ends in BAD_ARGUMENT exactly on the lengths of its row. -/
def Obligations.BadArgumentExactlyOnBadLengths : Prop :=
  ∀ (i : Instr) (s t : State), exec i s = .next t →
    (t.err = .badArgument ↔
      match i with
      | .encblk => 264 < s.ilen.toNat ∨ s.ilen.toNat % 3 ≠ 0
      | .decblk => 264 < s.ilen.toNat
      | .xorks => 264 < s.ilen.toNat
      | .csum => 264 < s.ilen.toNat
      | .unframe => 264 < s.ilen.toNat
      | .decrypt => 264 < s.ilen.toNat
      | .frame => 255 < s.ilen.toNat
      | .encrypt => 255 < s.ilen.toNat
      | .nop => False
      | .rdfwd _ => False
      | .rdinv _ => False
      | .getcode _ _ _ => False
      | .getorig _ => False)

/-- R200: the numbers of the codes, and which commands may end in which: only UNFRAME and DECRYPT in a
validation error, no command in MALFORMED_KEY, MALFORMED_CIPHERTEXT or ILLEGAL_COMMAND. -/
def Obligations.EachCodeIsRaisedOnlyWhereListed : Prop :=
  ([ErrCode.ok, .invalidLength, .invalidPadding, .checksumMismatch, .malformedKey, .badArgument,
    .illegalCommand, .malformedCiphertext].map fun e => e.code.toNat) = [0, 1, 2, 3, 4, 5, 6, 7] ∧
  (∀ e : ErrCode, e.code.toNat < 8) ∧
  ∀ (i : Instr) (s t : State), exec i s = .next t →
    (t.err = .invalidLength ∨ t.err = .invalidPadding ∨ t.err = .checksumMismatch →
      i = .unframe ∨ i = .decrypt) ∧
    t.err ≠ .malformedKey ∧ t.err ≠ .malformedCiphertext ∧ t.err ≠ .illegalCommand

/-- R207: reissuing a failed command on the same input gives the same error. -/
def Obligations.FailedCommandFailsAgain : Prop :=
  ∀ (i : Instr) (s t : State) (w : Word), exec i s = .next t → t.err ≠ .ok →
    t.phase = s.phase ∧ exec i { t with cmd := w, pend := true } = .next { t with cmd := w }

/-! The functions of the units (40_cube.md to 43_codec.md). -/

/-- R105: the block round trip, both ways, and the bijection in ROM terms. -/
def Obligations.BlockRoundTrip : Prop :=
  (∀ (p : Perm24) (b0 b1 b2 : Byte), ∃ h0 h1 h2,
    getCode p b0 b1 b2 = [h0, h1, h2] ∧ decGroup p h0 h1 h2 = [b0, b1, b2]) ∧
  (∀ (p : Perm24) (h0 h1 h2 : Byte), ∃ b0 b1 b2,
    decGroup p h0 h1 h2 = [b0, b1, b2] ∧ getCode p b0 b1 b2 = [h0, h1, h2]) ∧
  ∀ (s : State) (i c : Word24), s.inv (s.fwd i) = i ∧ s.fwd (s.inv c) = c

/-- R106, R107: the block encoder and decoder, group by group, with their lengths. -/
def Obligations.BlockStringsGroupByGroup : Prop :=
  (∀ (p : Perm24) (s : List Byte), s.length % 3 = 0 →
    (encBlocks p s).length = s.length ∧
    ∀ q < s.length / 3, ((encBlocks p s).drop (3 * q)).take 3 =
      getCode p (s.getD (3 * q) 0#8) (s.getD (3 * q + 1) 0#8) (s.getD (3 * q + 2) 0#8)) ∧
  (∀ (p : Perm24) (s : List Byte) (n : Nat),
    (decBlocks p n s).length = 3 * min n (s.length / 3) ∧
    (∀ q < min n (s.length / 3), ((decBlocks p n s).drop (3 * q)).take 3 =
      decGroup p (s.getD (3 * q) 0#8) (s.getD (3 * q + 1) 0#8) (s.getD (3 * q + 2) 0#8)) ∧
    decAll p s = decBlocks p (s.length / 3) s ∧
    (∀ s' : List Byte, s'.take (3 * (s.length / 3)) = s.take (3 * (s.length / 3)) →
      s'.length / 3 = s.length / 3 → decBlocks p n s' = decBlocks p n s))

/-- R140, R141: the keystream's bytes and XorStream byte by byte, with its length. -/
def Obligations.XorStreamByteByByte : Prop :=
  (∀ (key : Key) (j : Nat), j < 8 →
    (keyByte key j).toNat = key.toNat / 2 ^ (56 - 8 * j) % 256) ∧
  ∀ (key : Key) (s : List Byte),
    (xorStream key s).length = ceil8 s.length ∧ s.length ≤ ceil8 s.length ∧
    ceil8 s.length % 8 = 0 ∧ ceil8 s.length < s.length + 8 ∧
    ∀ j < ceil8 s.length, (xorStream key s).getD j 0#8 =
      (s ++ List.replicate (ceil8 s.length - s.length) 0x00#8).getD j 0#8 ^^^ keyByte key (j % 8)

/-- R142: XorStream twice. -/
def Obligations.XorStreamTwiceRestoresThePaddedInput : Prop :=
  ∀ (key : Key) (s : List Byte),
    xorStream key (xorStream key s) = s ++ List.replicate (ceil8 s.length - s.length) 0x00#8 ∧
    (s.length % 8 = 0 → xorStream key (xorStream key s) = s)

/-- R150, R151: the checksum is the left-to-right fold, and its ranges. -/
def Obligations.ChecksumFoldAndRanges : Prop :=
  csum [] = 0x00#8 ∧
  (∀ (s : List Byte) (b : Byte),
    csum (s ++ [b]) = BitVec.ofInt 8 (Int.tmod ((csum s).toInt + b.toInt) 127 + 1) ∧
    (csum (s ++ [b])).toInt = Int.tmod ((csum s).toInt + b.toInt) 127 + 1 ∧
    -125 ≤ (csum (s ++ [b])).toInt ∧ (csum (s ++ [b])).toInt ≤ 127) ∧
  (∀ s : List Byte, (∀ b ∈ s, b.toNat < 0x80) → s ≠ [] →
    1 ≤ (csum s).toNat ∧ (csum s).toNat ≤ 0x7F ∧
    (csum s).toNat = s.foldl (fun acc b => (acc + b.toNat) % 127 + 1) 0) ∧
  ∀ s : List Byte, s ≠ [] → (csum s = 0x00#8 ∨ 0x80 ≤ (csum s).toNat) → ∃ b ∈ s, 0x80 ≤ b.toNat

/-- R152, R153: the frame's layout and its length law. -/
def Obligations.FrameLayoutAndLength : Prop :=
  (∀ m : List Byte, m.length ≤ 255 → ∃ k, k = 3 - (m.length + 2) % 3 ∧ 1 ≤ k ∧ k ≤ 3 ∧
    frame m = [BitVec.ofNat 8 m.length] ++ m ++ [csum m] ++ List.replicate k (BitVec.ofNat 8 k) ∧
    (k = 3 ↔ m.length % 3 = 1) ∧
    (frame m).length = m.length + 2 + k ∧
    (frame m).length = 3 * ((m.length + 2) / 3 + 1) ∧
    (frame m).length = 3 * frameBlocks m.length) ∧
  frameLength 0 = 3 ∧ frameLength 255 = 258 ∧ frameBlocks 255 = 86

/-- R154: Unframe's checks, each reached only when those before it passed. -/
def Obligations.UnframeChecksInOrder : Prop :=
  unframe [] = .error .invalidLength ∧
  ∀ (first : Byte) (rest : List Byte) (d : List Byte) (l : Nat), d = first :: rest →
    l = first.toNat →
    (d.length < l → unframe d = .error .invalidLength) ∧
    (l ≤ d.length → d.length < l + 2 → unframe d = .error .invalidLength) ∧
    (l + 2 ≤ d.length → (∃ j, l + 2 ≤ j ∧ j < d.length ∧
        (d.getD j 0#8).toNat ≠ d.length - (l + 2)) → unframe d = .error .invalidPadding) ∧
    (l + 2 ≤ d.length → (∀ j, l + 2 ≤ j → j < d.length →
        (d.getD j 0#8).toNat = d.length - (l + 2)) →
      (csum ((d.drop 1).take l) ≠ d.getD (l + 1) 0#8 → unframe d = .error .checksumMismatch) ∧
      (csum ((d.drop 1).take l) = d.getD (l + 1) 0#8 → unframe d = .ok ((d.drop 1).take l)))

/-- R155: the validator on a frame, on other padding counts, and on a corrupted frame. -/
def Obligations.UnframeOfFrames : Prop :=
  ∀ m : List Byte, m.length ≤ 255 →
    unframe (frame m) = .ok m ∧
    unframe ([BitVec.ofNat 8 m.length] ++ m ++ [csum m]) = .ok m ∧
    (∀ t ≤ 255, unframe ([BitVec.ofNat 8 m.length] ++ m ++ [csum m] ++
      List.replicate t (BitVec.ofNat 8 t)) = .ok m) ∧
    (∀ pad : List Byte, 255 < pad.length →
      unframe ([BitVec.ofNat 8 m.length] ++ m ++ [csum m] ++ pad) = .error .invalidPadding) ∧
    (∀ (j : Nat) (b : Byte), m.length + 2 ≤ j → j < (frame m).length →
      b ≠ (frame m).getD j 0#8 → unframe ((frame m).set j b) = .error .invalidPadding) ∧
    (∀ b : Byte, b ≠ csum m →
      unframe ((frame m).set (m.length + 1) b) = .error .checksumMismatch)

/-- R179: under FRAME_BOUNDED every message of at most 255 bytes comes back, for every key and every
permutation. -/
def Obligations.FrameBoundedRoundTrip : Prop :=
  ∀ (p : Perm24) (key : Key) (m : List Byte), m.length ≤ 255 →
    decryptBytes .frameBounded p key (encryptBytes p key m) = .ok m

/-- R179 on the machine: ENCRYPT, its output loaded as the input of any state of the same instance and
key, then DECRYPT, gives the message back in OBUF. -/
def Obligations.EncryptThenDecryptReturnsTheMessage : Prop :=
  ∀ s t u : State, Memory.wf s.mem → Memory.wf u.mem → s.ilen.toNat ≤ 255 →
    u.policy = .frameBounded → u.key = s.key → u.tables = s.tables →
    exec .encrypt s = .next t → u.input = t.output →
    ∃ v, exec .decrypt u = .next v ∧ v.err = .ok ∧ v.output = s.input

/-- R180: under LITERAL a message comes back exactly when its number of blocks is 0, 2 or 5 modulo 8;
every other message gives INVALID_PADDING; of the lengths 0..255, 96 come back. -/
def Obligations.LiteralRoundTrip : Prop :=
  (∀ (p : Perm24) (key : Key) (m : List Byte), m.length ≤ 255 →
    ((frameBlocks m.length % 8 = 0 ∨ frameBlocks m.length % 8 = 2 ∨ frameBlocks m.length % 8 = 5) ↔
      (ceil8 (3 * frameBlocks m.length) - 3 * frameBlocks m.length) / 3 = 0) ∧
    decryptBytes .literal p key (encryptBytes p key m) =
      (if frameBlocks m.length % 8 ∈ [0, 2, 5] then .ok m else .error .invalidPadding)) ∧
  ((List.range 256).filter fun l => frameBlocks l % 8 ∈ [0, 2, 5]).length = 96

/-- R178, R176: under FRAME_BOUNDED, ciphertext bytes beyond the groups that the frame's length byte
implies do not change the result, whatever the ciphertext is; so any bytes may stand there after the
encryption of a message. -/
def Obligations.DecryptIgnoresBytesBeyondTheFrame : Prop :=
  (∀ (p : Perm24) (key : Key) (c c' : List Byte) (l : Byte), c'.length = c.length →
    lengthByte p (xorStream key c) = some l →
    c'.take (3 * frameBlocks l.toNat) = c.take (3 * frameBlocks l.toNat) →
    decryptBytes .frameBounded p key c' = decryptBytes .frameBounded p key c) ∧
  ∀ (p : Perm24) (key : Key) (m c : List Byte), m.length ≤ 255 →
    c.take (frameLength m.length) = (encryptBytes p key m).take (frameLength m.length) →
    decryptBytes .frameBounded p key c = .ok m

/-! The host adapter and the source's string form (44_host_adapter.md, 41_stream_xor.md). -/

/-- R190, R191: KeyParse accepts exactly 16 hexadecimal characters, reads them big-endian, does not
distinguish case, and a malformed key makes the adapter do nothing. -/
def Obligations.KeyParseReadsSixteenDigits : Prop :=
  (∀ s : List Char, (∃ k, keyParse s = .ok k) ↔ s.length = 16 ∧ ∀ c ∈ s, (hexval c).isSome = true) ∧
  (∀ (s : List Char) (k : Key), keyParse s = .ok k → ∀ j < 16,
    hexval (s.getD j ' ') = some (k.toNat / 16 ^ (15 - j) % 16)) ∧
  (∀ s : List Char, (∀ k, keyParse s ≠ .ok k) →
    keyParse s = .error .malformedKey ∧ ∀ clearOvr, bootOps clearOvr s = .error .malformedKey) ∧
  ∀ k : Key, keyParse (srcFormat k) = .ok k ∧ keyParse ((srcFormat k).map Char.toUpper) = .ok k

/-- R192 to R194: the hex form of a byte is its two lowercase digits, high nibble first, and CipherParse
reads the hex form of a string back. CipherParse takes each pair of digits, of either case, as a byte:
strings that differ only in case parse alike; an odd string gets one '0'; a character that is no digit is
MALFORMED_CIPHERTEXT; more than 264 bytes are BAD_ARGUMENT. The digits, with their values, are the 22
characters of R190 and no other character. -/
def Obligations.CipherParseReadsTheHexForm : Prop :=
  (∀ s : List Byte, (hex s).length = 2 * s.length ∧
    (s.length ≤ 264 → cipherParse (hex s) = .ok s) ∧
    (264 < s.length → cipherParse (hex s) = .error .badArgument)) ∧
  (∀ t : List Char, (∀ c ∈ t, (hexval c).isSome = true) → t.length % 2 = 0 →
    (t.length / 2 ≤ 264 → ∃ bs, cipherParse t = .ok bs ∧ bs.length = t.length / 2 ∧
      ∀ j < bs.length, hexval (t.getD (2 * j) ' ') = some ((bs.getD j 0#8).toNat / 16) ∧
        hexval (t.getD (2 * j + 1) ' ') = some ((bs.getD j 0#8).toNat % 16)) ∧
    (264 < t.length / 2 → cipherParse t = .error .badArgument)) ∧
  (∀ t u : List Char, t.map Char.toLower = u.map Char.toLower → cipherParse t = cipherParse u) ∧
  (∀ t : List Char, t.length % 2 = 1 → cipherParse t = cipherParse (t ++ ['0'])) ∧
  (∀ t : List Char, (∃ c ∈ t, hexval c = none) → cipherParse t = .error .malformedCiphertext) ∧
  (∀ b : Byte, hex2 b = ["0123456789abcdef".toList.getD (b.toNat / 16) ' ',
    "0123456789abcdef".toList.getD (b.toNat % 16) ' '] ∧
    (∀ c ∈ hex2 b, c ∈ "0123456789abcdef".toList)) ∧
  (∀ d < 16, hexval ("0123456789abcdef".toList.getD d ' ') = some d ∧
    hexval ("0123456789ABCDEF".toList.getD d ' ') = some d) ∧
  ∀ c : Char, (hexval c).isSome = true ↔ c ∈ "0123456789abcdefABCDEF".toList

/-- R144: the source's StreamXOR on a hex string of any case is the lowercase hex of XorStream on its
bytes; a string of odd length counts as padded with one '0'. -/
def Obligations.StreamXorStringFormAgrees : Prop :=
  (∀ (key : Key) (h : List Char) (ds : List Nat), hexvals h = some ds →
    srcStreamXor key h = hex (xorStream key (pairBytes (evenDigits ds)))) ∧
  ∀ (key : Key) (s : List Byte), srcStreamXor key (hex s) = hex (xorStream key s)

/-- R195: the source's string-level encrypt and decrypt are what ENCRYPT and DECRYPT give through the
host adapter, under either policy. -/
def Obligations.SourceStringFormsAgree : Prop :=
  (∀ s t : State, Memory.wf s.mem → s.ilen.toNat ≤ 255 → exec .encrypt s = .next t →
    cipherFormat t = srcEncrypt s.perm s.key s.input) ∧
  ∀ (s t : State) (text : List Char), Memory.wf s.mem → cipherParse text = .ok s.input →
    exec .decrypt s = .next t →
    (∀ orig, srcDecrypt s.policy s.perm s.key text = .ok orig → t.err = .ok ∧ t.output = orig) ∧
    (∀ e, srcDecrypt s.policy s.perm s.key text = .error e → t.err = e ∧ t.olen = 0#9)

/-- R235: the host's boot order, with its optional step 4 or without, run on an idle block with no turn
listed, ends with the block ready and idle, its KEY the one the string spells, OVR clear, STATUS
0x00000002, and every register and buffer zero. (That the engine's build takes the turn between is the model's default turn, log 6.) -/
def Obligations.BootOrderMakesTheBlockReady : Prop :=
  ∀ (s : State) (clearOvr : Bool) (text : List Char) (k : Key) (ops rest : List HostOp),
    keyParse text = .ok k → bootOps clearOvr text = .ok ops → s.busy = false → s.turns = [] →
    s.hostOps = ops ++ rest →
    ∃ t, core.run (if clearOvr then 5 else 4) s = .next t ∧ t.hostOps = rest ∧ t.busy = false ∧ t.ready = true ∧ t.key = k ∧
      memRead t (portAddr 0x008) = 0x00000002#32 ∧ t.cmd = 0#32 ∧ t.ilen = 0#9 ∧ t.olen = 0#9 ∧
      t.result = 0#24 ∧ t.mem = []
end

