-- ==== Sys2Proof/Laws/Decode.lean ====
section
/-! SUPPORT. The laws of the bit fields: the fields of a command word (R80) and the bytes of a 24-bit
value (R102 to R104). -/

namespace Sys2Proof

open Sys2Proof.Machine

@[simp] theorem opField_commandWord (op : Byte) (imm : Word24) : opField (commandWord op imm) = op := by
  apply BitVec.eq_of_getLsbD_eq
  intro k hk
  simp only [opField, commandWord, BitVec.getLsbD_extractLsb', BitVec.getLsbD_append]
  simp [hk]

@[simp] theorem immField_commandWord (op : Byte) (imm : Word24) :
    immField (commandWord op imm) = imm := by
  apply BitVec.eq_of_getLsbD_eq
  intro k hk
  simp only [immField, commandWord, BitVec.getLsbD_extractLsb', BitVec.getLsbD_append]
  simp [hk]

/-- A word is the word of its two fields. -/
theorem commandWord_fields (w : Word) : commandWord (opField w) (immField w) = w := by
  apply BitVec.eq_of_getLsbD_eq
  intro k hk
  simp only [opField, immField, commandWord, BitVec.getLsbD_extractLsb', BitVec.getLsbD_append]
  by_cases h : k < 8
  · simp [h]
  · have h1 : k - 8 < 24 := by omega
    have h2 : 8 + (k - 8) = k := by omega
    simp [h, h1, h2]

@[simp] theorem byteLo_join24 (hi mid lo : Byte) : byteLo (join24 hi mid lo) = lo := by
  apply BitVec.eq_of_getLsbD_eq
  intro k hk
  simp only [byteLo, join24, BitVec.getLsbD_extractLsb', BitVec.getLsbD_append]
  simp [hk]

@[simp] theorem byteMid_join24 (hi mid lo : Byte) : byteMid (join24 hi mid lo) = mid := by
  apply BitVec.eq_of_getLsbD_eq
  intro k hk
  simp only [byteMid, join24, BitVec.getLsbD_extractLsb', BitVec.getLsbD_append]
  simp [hk]

@[simp] theorem byteHi_join24 (hi mid lo : Byte) : byteHi (join24 hi mid lo) = hi := by
  apply BitVec.eq_of_getLsbD_eq
  intro k hk
  have h1 : ¬(16 + k < 8) := by omega
  have h2 : ¬(16 + k - 8 < 8) := by omega
  have h3 : 16 + k - 8 - 8 = k := by omega
  simp only [byteHi, join24, BitVec.getLsbD_extractLsb', BitVec.getLsbD_append]
  simp [hk, h1, h2, h3]

/-- A 24-bit value is its three bytes joined. -/
@[simp] theorem join24_bytes (v : Word24) : join24 (byteHi v) (byteMid v) (byteLo v) = v := by
  apply BitVec.eq_of_getLsbD_eq
  intro k hk
  simp only [byteHi, byteMid, byteLo, join24, BitVec.getLsbD_extractLsb', BitVec.getLsbD_append]
  by_cases h1 : k < 8
  · simp [h1]
  · by_cases h2 : k - 8 < 8
    · have : 8 + (k - 8) = k := by omega
      simp [h1, h2, this]
    · have h3 : k - 8 - 8 < 8 := by omega
      have : 16 + (k - 8 - 8) = k := by omega
      simp [h1, h2, h3, this]

namespace Machine

@[simp] theorem length_bytes24 (v : Word24) : (bytes24 v).length = 3 := rfl

/-- The two byte reversals of getOriginal and of its big-endian argument cancel (R104). -/
@[simp] theorem bswap24_groupInt (h0 h1 h2 : Byte) : bswap24 (groupInt h0 h1 h2) = join24 h2 h1 h0 := by
  simp [bswap24, groupInt]

@[simp] theorem bswap24_bswap24 (v : Word24) : bswap24 (bswap24 v) = v := by
  simp [bswap24]

theorem blockIndex_bytes (v : Word24) : blockIndex (byteLo v) (byteMid v) (byteHi v) = v := by
  simp [blockIndex]

@[simp] theorem bytes24_blockIndex (b0 b1 b2 : Byte) : bytes24 (blockIndex b0 b1 b2) = [b0, b1, b2] := by
  simp [bytes24, blockIndex]

end Machine

end Sys2Proof
end

