-- ==== Sys2Proof/Laws/Memory.lean ====
section
/-! SUPPORT. The laws of memory: what a read sees after a write, and that every operation keeps the
canonical form. -/

namespace Sys2Proof.Machine

theorem Memory.read_of_not_listed (m : Memory) (a : Nat) (h : ∀ c ∈ m, c.1 ≠ a) :
    m.read a = Memory.unlisted := by
  induction m with
  | nil => rfl
  | cons c rest ih =>
    have hc := h c (by simp)
    simp only [Memory.read, if_neg hc]
    exact ih fun d hd => h d (by simp [hd])

/-- Every address below the first listed one of a sorted memory is unlisted. -/
theorem Memory.read_below (m : Memory) (a : Nat) (h : ∀ c ∈ m, a < c.1) :
    m.read a = Memory.unlisted :=
  Memory.read_of_not_listed m a fun c hc => Nat.ne_of_gt (h c hc)

theorem Memory.wf_cons {c : Host.Cell} {rest : Memory} :
    Memory.wf (c :: rest) ↔
      (∀ d ∈ rest, c.1 < d.1) ∧ c.2 ≠ Memory.unlisted ∧ Memory.wf rest := by
  simp only [Memory.wf, List.map_cons, List.pairwise_cons, List.mem_map, List.mem_cons]
  constructor
  · rintro ⟨⟨h1, h2⟩, h3⟩
    exact ⟨fun d hd => h1 _ ⟨d, hd, rfl⟩, h3 c (Or.inl rfl), h2, fun d hd => h3 d (Or.inr hd)⟩
  · rintro ⟨h1, h2, h3, h4⟩
    refine ⟨⟨?_, h3⟩, ?_⟩
    · rintro _ ⟨d, hd, rfl⟩
      exact h1 d hd
    · rintro d (rfl | hd)
      · exact h2
      · exact h4 d hd

theorem Memory.read_write_same (m : Memory) (a : Nat) (b : Byte) (h : Memory.wf m) :
    (m.write a b).read a = b := by
  induction m with
  | nil => by_cases hb : b = Memory.unlisted <;> simp [Memory.write, Memory.read, hb]
  | cons c rest ih =>
    obtain ⟨h1, -, h3⟩ := Memory.wf_cons.mp h
    have below : ∀ x, x ≤ c.1 → ∀ d ∈ rest, x < d.1 := fun x hx d hd =>
      Nat.lt_of_le_of_lt hx (h1 d hd)
    simp only [Memory.write]
    by_cases hlt : a < c.1
    · have hne : c.1 ≠ a := Nat.ne_of_gt hlt
      have := Memory.read_below rest a (below a hlt.le)
      by_cases hb : b = Memory.unlisted <;> simp [hlt, hb, Memory.read, hne, this]
    · by_cases heq : a = c.1
      · have := Memory.read_below rest a (below a heq.le)
        subst heq
        by_cases hb : b = Memory.unlisted <;> simp [hb, Memory.read, this]
      · simp [hlt, heq, Memory.read, Ne.symm heq, ih h3]

theorem Memory.read_write_other (m : Memory) (a a' : Nat) (b : Byte) (hne : a' ≠ a)
    (h : Memory.wf m) : (m.write a b).read a' = m.read a' := by
  induction m with
  | nil => by_cases hb : b = Memory.unlisted <;> simp [Memory.write, Memory.read, hb, Ne.symm hne]
  | cons c rest ih =>
    obtain ⟨h1, -, h3⟩ := Memory.wf_cons.mp h
    simp only [Memory.write]
    by_cases hlt : a < c.1
    · by_cases hb : b = Memory.unlisted <;> simp [hlt, hb, Memory.read, Ne.symm hne]
    · by_cases heq : a = c.1
      · have hc : c.1 ≠ a' := by omega
        by_cases hb : b = Memory.unlisted <;> simp [heq, hb, Memory.read, hc]
      · simp [hlt, heq, Memory.read, ih h3]

/-- The addresses a write lists: the old ones, and the written one. -/
theorem Memory.mem_write {m : Memory} {a : Nat} {b : Byte} {c : Host.Cell}
    (h : c ∈ m.write a b) : c ∈ m ∨ (c = (a, b) ∧ b ≠ Memory.unlisted) := by
  induction m with
  | nil =>
    by_cases hb : b = Memory.unlisted <;> simp [Memory.write, hb] at h
    exact Or.inr ⟨h, hb⟩
  | cons d rest ih =>
    simp only [Memory.write] at h
    by_cases hlt : a < d.1
    · by_cases hb : b = Memory.unlisted <;> simp [hlt, hb] at h
      · simpa using Or.inl h
      · rcases h with h | h | h
        · exact Or.inr ⟨h, hb⟩
        · exact Or.inl (by simp [h])
        · exact Or.inl (by simp [h])
    · by_cases heq : a = d.1
      · by_cases hb : b = Memory.unlisted <;> simp [heq, hb] at h
        · exact Or.inl (by simp [h])
        · rcases h with h | h
          · exact Or.inr ⟨by rw [h, heq], hb⟩
          · exact Or.inl (by simp [h])
      · simp [hlt, heq] at h
        rcases h with h | h
        · exact Or.inl (by simp [h])
        · rcases ih h with h | h
          · exact Or.inl (by simp [h])
          · exact Or.inr h

/-- A write keeps the canonical form. -/
theorem Memory.write_wf (m : Memory) (a : Nat) (b : Byte) (h : Memory.wf m) :
    Memory.wf (m.write a b) := by
  induction m with
  | nil => by_cases hb : b = Memory.unlisted <;> simp [Memory.write, hb, Memory.wf]
  | cons c rest ih =>
    obtain ⟨h1, h2, h3⟩ := Memory.wf_cons.mp h
    simp only [Memory.write]
    by_cases hlt : a < c.1
    · by_cases hb : b = Memory.unlisted
      · simpa [hlt, hb] using h
      · simp only [hlt, hb, if_true, if_false]
        refine Memory.wf_cons.mpr ⟨?_, hb, h⟩
        rintro d hd
        rcases List.mem_cons.mp hd with rfl | hd
        · exact hlt
        · exact hlt.trans (h1 d hd)
    · by_cases heq : a = c.1
      · by_cases hb : b = Memory.unlisted
        · simpa [hlt, heq, hb] using h3
        · simp only [heq, hb, if_true, if_false, lt_self_iff_false]
          exact Memory.wf_cons.mpr ⟨h1, hb, h3⟩
      · simp only [hlt, heq, if_false]
        refine Memory.wf_cons.mpr ⟨fun d hd => ?_, h2, ih h3⟩
        rcases Memory.mem_write hd with hd | ⟨rfl, -⟩
        · exact h1 d hd
        · exact Nat.lt_of_le_of_ne (Nat.le_of_not_lt hlt) (Ne.symm heq)

/-- Storing a byte string keeps the canonical form. -/
theorem Memory.store_wf (m : Memory) (a : Nat) (bs : List Byte) (h : Memory.wf m) :
    Memory.wf (m.store a bs) := by
  induction bs generalizing m a with
  | nil => exact h
  | cons b rest ih => exact ih _ _ (Memory.write_wf m a b h)

/-- Every address a store lists is an old one or one of the stored bytes'. -/
theorem Memory.mem_store {m : Memory} {a : Nat} {bs : List Byte} {c : Host.Cell}
    (h : c ∈ m.store a bs) : c ∈ m ∨ (a ≤ c.1 ∧ c.1 < a + bs.length) := by
  induction bs generalizing m a with
  | nil => exact Or.inl h
  | cons b rest ih =>
    rcases ih h with h | ⟨h1, h2⟩
    · rcases Memory.mem_write h with h | ⟨rfl, -⟩
      · exact Or.inl h
      · exact Or.inr (by simp)
    · exact Or.inr (by simp only [List.length_cons]; omega)

/-- What a byte outside the stored ones reads as after a store. -/
theorem Memory.read_store_other (m : Memory) (a a' : Nat) (bs : List Byte) (h : Memory.wf m)
    (ho : ¬(a ≤ a' ∧ a' < a + bs.length)) : (m.store a bs).read a' = m.read a' := by
  induction bs generalizing m a with
  | nil => rfl
  | cons b rest ih =>
    simp only [List.length_cons] at ho
    rw [Memory.store, ih _ _ (Memory.write_wf m a b h) (by omega),
      Memory.read_write_other m a a' b (by omega) h]

/-- What a stored byte reads as after the store. -/
theorem Memory.read_store_inside (m : Memory) (a j : Nat) (bs : List Byte) (h : Memory.wf m)
    (hj : j < bs.length) : (m.store a bs).read (a + j) = bs.getD j 0#8 := by
  induction bs generalizing m a j with
  | nil => simp at hj
  | cons b rest ih =>
    cases j with
    | zero =>
      rw [Memory.store, Memory.read_store_other _ _ _ _ (Memory.write_wf m a b h) (by omega)]
      simpa using Memory.read_write_same m a b h
    | succ j =>
      have := ih (m.write a b) (a + 1) j (Memory.write_wf m a b h) (by simpa using hj)
      rw [Memory.store, show a + (j + 1) = a + 1 + j by omega, this]
      simp

@[simp] theorem Memory.length_load (m : Memory) (a n : Nat) : (m.load a n).length = n := by
  induction n generalizing a with
  | zero => rfl
  | succ n ih => simp [Memory.load, ih]

/-- A load of bytes is determined by the reads of its bytes. -/
theorem Memory.load_congr (m m' : Memory) (a n : Nat)
    (h : ∀ j < n, m.read (a + j) = m'.read (a + j)) : m.load a n = m'.load a n := by
  induction n generalizing a with
  | zero => rfl
  | succ n ih =>
    simp only [Memory.load]
    rw [show m.read a = m'.read a from h 0 (by omega), ih (a + 1) fun j hj => by
      simpa [Nat.add_assoc, Nat.add_comm, Nat.add_left_comm] using h (j + 1) (by omega)]

theorem Memory.getD_load (m : Memory) (a n j : Nat) (hj : j < n) :
    (m.load a n).getD j 0#8 = m.read (a + j) := by
  induction n generalizing a j with
  | zero => omega
  | succ n ih =>
    cases j with
    | zero => simp [Memory.load]
    | succ j =>
      simp only [Memory.load, List.getD_cons_succ]
      rw [ih (a + 1) j (by omega)]
      congr 1
      omega

/-- Loading what was stored gives the stored string. -/
theorem Memory.load_store (m : Memory) (a : Nat) (bs : List Byte) (h : Memory.wf m) :
    (m.store a bs).load a bs.length = bs := by
  apply List.ext_getElem (by simp)
  intro j h1 h2
  have := Memory.getD_load (m.store a bs) a bs.length j h2
  rw [Memory.read_store_inside m a j bs h h2] at this
  simpa [List.getD_eq_getElem?_getD, h1, h2] using this

/-- Two memories in canonical form that read alike are the same list. -/
theorem Memory.eq_of_read_eq {m m' : Memory} (h : Memory.wf m) (h' : Memory.wf m')
    (hr : ∀ a, m.read a = m'.read a) : m = m' := by
  induction m generalizing m' with
  | nil =>
    cases m' with
    | nil => rfl
    | cons c rest =>
      have := hr c.1
      simp only [Memory.read, if_true] at this
      exact absurd this.symm (Memory.wf_cons.mp h').2.1
  | cons c rest ih =>
    obtain ⟨h1, h2, h3⟩ := Memory.wf_cons.mp h
    cases m' with
    | nil =>
      have := hr c.1
      simp only [Memory.read, if_true] at this
      exact absurd this h2
    | cons d rest' =>
      obtain ⟨k1, k2, k3⟩ := Memory.wf_cons.mp h'
      have hcd : c.1 = d.1 := by
        rcases Nat.lt_trichotomy c.1 d.1 with hlt | heq | hgt
        · have := hr c.1
          rw [Memory.read_below (d :: rest') c.1 (by
            intro e he
            rcases List.mem_cons.mp he with rfl | he
            · exact hlt
            · exact hlt.trans (k1 e he))] at this
          simp only [Memory.read, if_true] at this
          exact absurd this h2
        · exact heq
        · have := hr d.1
          rw [Memory.read_below (c :: rest) d.1 (by
            intro e he
            rcases List.mem_cons.mp he with rfl | he
            · exact hgt
            · exact hgt.trans (h1 e he))] at this
          simp only [Memory.read, if_true] at this
          exact absurd this.symm k2
      have hv : c.2 = d.2 := by
        have := hr c.1
        simpa [Memory.read, hcd] using this
      have hrest : rest = rest' := ih h3 k3 fun a => by
        by_cases ha : a = c.1
        · rw [ha, Memory.read_below rest c.1 h1, hcd, Memory.read_below rest' d.1 k1]
        · have := hr a
          simpa [Memory.read, Ne.symm ha, ← hcd] using this
      rw [hrest, Prod.ext hcd hv]

end Sys2Proof.Machine
end

