-- ==== Sys2Proof/Laws/State.lean ====
section
/-! SUPPORT. One lemma per field per named update of the state, so that no later proof unfolds one. -/

namespace Sys2Proof.Machine

@[simp] theorem raiseErr_cmd (e : ErrCode) (s : State) :
    (raiseErr e s).cmd = s.cmd := rfl

@[simp] theorem raiseErr_ovr (e : ErrCode) (s : State) :
    (raiseErr e s).ovr = s.ovr := rfl

@[simp] theorem raiseErr_err (e : ErrCode) (s : State) :
    (raiseErr e s).err = e := rfl

@[simp] theorem raiseErr_ilen (e : ErrCode) (s : State) :
    (raiseErr e s).ilen = s.ilen := rfl

@[simp] theorem raiseErr_olen (e : ErrCode) (s : State) :
    (raiseErr e s).olen = 0#9 := rfl

@[simp] theorem raiseErr_result (e : ErrCode) (s : State) :
    (raiseErr e s).result = 0#24 := rfl

@[simp] theorem raiseErr_policy (e : ErrCode) (s : State) :
    (raiseErr e s).policy = s.policy := rfl

@[simp] theorem raiseErr_mem (e : ErrCode) (s : State) :
    (raiseErr e s).mem = s.mem := rfl

@[simp] theorem raiseErr_key (e : ErrCode) (s : State) :
    (raiseErr e s).key = s.key := rfl

@[simp] theorem raiseErr_phase (e : ErrCode) (s : State) :
    (raiseErr e s).phase = s.phase := rfl

@[simp] theorem raiseErr_pend (e : ErrCode) (s : State) :
    (raiseErr e s).pend = false := rfl

@[simp] theorem raiseErr_tables (e : ErrCode) (s : State) :
    (raiseErr e s).tables = s.tables := rfl

@[simp] theorem raiseErr_keyIn (e : ErrCode) (s : State) :
    (raiseErr e s).keyIn = s.keyIn := rfl

@[simp] theorem raiseErr_hostOps (e : ErrCode) (s : State) :
    (raiseErr e s).hostOps = s.hostOps := rfl

@[simp] theorem raiseErr_reads (e : ErrCode) (s : State) :
    (raiseErr e s).reads = s.reads := rfl

@[simp] theorem raiseErr_turns (e : ErrCode) (s : State) :
    (raiseErr e s).turns = s.turns := rfl

@[simp] theorem buildTables_cmd (s : State) :
    (buildTables s).cmd = s.cmd := rfl

@[simp] theorem buildTables_ovr (s : State) :
    (buildTables s).ovr = s.ovr := rfl

@[simp] theorem buildTables_err (s : State) :
    (buildTables s).err = s.err := rfl

@[simp] theorem buildTables_ilen (s : State) :
    (buildTables s).ilen = s.ilen := rfl

@[simp] theorem buildTables_olen (s : State) :
    (buildTables s).olen = s.olen := rfl

@[simp] theorem buildTables_result (s : State) :
    (buildTables s).result = s.result := rfl

@[simp] theorem buildTables_policy (s : State) :
    (buildTables s).policy = s.policy := rfl

@[simp] theorem buildTables_mem (s : State) :
    (buildTables s).mem = s.mem := rfl

@[simp] theorem buildTables_key (s : State) :
    (buildTables s).key = s.key := rfl

@[simp] theorem buildTables_phase (s : State) :
    (buildTables s).phase = .ready := rfl

@[simp] theorem buildTables_pend (s : State) :
    (buildTables s).pend = s.pend := rfl

@[simp] theorem buildTables_tables (s : State) :
    (buildTables s).tables = s.tables := rfl

@[simp] theorem buildTables_keyIn (s : State) :
    (buildTables s).keyIn = s.keyIn := rfl

@[simp] theorem buildTables_hostOps (s : State) :
    (buildTables s).hostOps = s.hostOps := rfl

@[simp] theorem buildTables_reads (s : State) :
    (buildTables s).reads = s.reads := rfl

@[simp] theorem buildTables_turns (s : State) :
    (buildTables s).turns = s.turns := rfl

@[simp] theorem resetEvent_cmd (s : State) :
    (resetEvent s).cmd = 0#32 := rfl

@[simp] theorem resetEvent_ovr (s : State) :
    (resetEvent s).ovr = false := rfl

@[simp] theorem resetEvent_err (s : State) :
    (resetEvent s).err = .ok := rfl

@[simp] theorem resetEvent_ilen (s : State) :
    (resetEvent s).ilen = 0#9 := rfl

@[simp] theorem resetEvent_olen (s : State) :
    (resetEvent s).olen = 0#9 := rfl

@[simp] theorem resetEvent_result (s : State) :
    (resetEvent s).result = 0#24 := rfl

@[simp] theorem resetEvent_policy (s : State) :
    (resetEvent s).policy = s.policy := rfl

@[simp] theorem resetEvent_mem (s : State) :
    (resetEvent s).mem = [] := rfl

@[simp] theorem resetEvent_key (s : State) :
    (resetEvent s).key = s.keyIn := rfl

@[simp] theorem resetEvent_phase (s : State) :
    (resetEvent s).phase = .constructing := rfl

@[simp] theorem resetEvent_pend (s : State) :
    (resetEvent s).pend = false := rfl

@[simp] theorem resetEvent_tables (s : State) :
    (resetEvent s).tables = s.tables := rfl

@[simp] theorem resetEvent_keyIn (s : State) :
    (resetEvent s).keyIn = s.keyIn := rfl

@[simp] theorem resetEvent_hostOps (s : State) :
    (resetEvent s).hostOps = s.hostOps := rfl

@[simp] theorem resetEvent_reads (s : State) :
    (resetEvent s).reads = s.reads := rfl

@[simp] theorem resetEvent_turns (s : State) :
    (resetEvent s).turns = s.turns := rfl

@[simp] theorem popTurn_cmd (s : State) :
    s.popTurn.cmd = s.cmd := rfl

@[simp] theorem popTurn_ovr (s : State) :
    s.popTurn.ovr = s.ovr := rfl

@[simp] theorem popTurn_err (s : State) :
    s.popTurn.err = s.err := rfl

@[simp] theorem popTurn_ilen (s : State) :
    s.popTurn.ilen = s.ilen := rfl

@[simp] theorem popTurn_olen (s : State) :
    s.popTurn.olen = s.olen := rfl

@[simp] theorem popTurn_result (s : State) :
    s.popTurn.result = s.result := rfl

@[simp] theorem popTurn_policy (s : State) :
    s.popTurn.policy = s.policy := rfl

@[simp] theorem popTurn_mem (s : State) :
    s.popTurn.mem = s.mem := rfl

@[simp] theorem popTurn_key (s : State) :
    s.popTurn.key = s.key := rfl

@[simp] theorem popTurn_phase (s : State) :
    s.popTurn.phase = s.phase := rfl

@[simp] theorem popTurn_pend (s : State) :
    s.popTurn.pend = s.pend := rfl

@[simp] theorem popTurn_tables (s : State) :
    s.popTurn.tables = s.tables := rfl

@[simp] theorem popTurn_keyIn (s : State) :
    s.popTurn.keyIn = s.keyIn := rfl

@[simp] theorem popTurn_hostOps (s : State) :
    s.popTurn.hostOps = s.hostOps := rfl

@[simp] theorem popTurn_reads (s : State) :
    s.popTurn.reads = s.reads := rfl

@[simp] theorem popTurn_turns (s : State) :
    s.popTurn.turns = s.turns.tail := rfl

@[simp] theorem hostRead_cmd (s : State) (a : PortAddr) (x : Option Word) :
    (hostRead s a x).cmd = s.cmd := rfl

@[simp] theorem hostRead_ovr (s : State) (a : PortAddr) (x : Option Word) :
    (hostRead s a x).ovr = s.ovr := rfl

@[simp] theorem hostRead_err (s : State) (a : PortAddr) (x : Option Word) :
    (hostRead s a x).err = s.err := rfl

@[simp] theorem hostRead_ilen (s : State) (a : PortAddr) (x : Option Word) :
    (hostRead s a x).ilen = s.ilen := rfl

@[simp] theorem hostRead_olen (s : State) (a : PortAddr) (x : Option Word) :
    (hostRead s a x).olen = s.olen := rfl

@[simp] theorem hostRead_result (s : State) (a : PortAddr) (x : Option Word) :
    (hostRead s a x).result = s.result := rfl

@[simp] theorem hostRead_policy (s : State) (a : PortAddr) (x : Option Word) :
    (hostRead s a x).policy = s.policy := rfl

@[simp] theorem hostRead_mem (s : State) (a : PortAddr) (x : Option Word) :
    (hostRead s a x).mem = s.mem := rfl

@[simp] theorem hostRead_key (s : State) (a : PortAddr) (x : Option Word) :
    (hostRead s a x).key = s.key := rfl

@[simp] theorem hostRead_phase (s : State) (a : PortAddr) (x : Option Word) :
    (hostRead s a x).phase = s.phase := rfl

@[simp] theorem hostRead_pend (s : State) (a : PortAddr) (x : Option Word) :
    (hostRead s a x).pend = s.pend := rfl

@[simp] theorem hostRead_tables (s : State) (a : PortAddr) (x : Option Word) :
    (hostRead s a x).tables = s.tables := rfl

@[simp] theorem hostRead_keyIn (s : State) (a : PortAddr) (x : Option Word) :
    (hostRead s a x).keyIn = s.keyIn := rfl

@[simp] theorem hostRead_hostOps (s : State) (a : PortAddr) (x : Option Word) :
    (hostRead s a x).hostOps = s.hostOps := rfl

@[simp] theorem hostRead_reads (s : State) (a : PortAddr) (x : Option Word) :
    (hostRead s a x).reads = s.reads ++ [⟨a, memRead s a, x⟩] := rfl

@[simp] theorem hostRead_turns (s : State) (a : PortAddr) (x : Option Word) :
    (hostRead s a x).turns = s.turns := rfl

@[simp] theorem writeOut_cmd (out : Option (List Byte)) (s : State) :
    (writeOut out s).cmd = s.cmd := by cases out <;> rfl

@[simp] theorem writeOut_ovr (out : Option (List Byte)) (s : State) :
    (writeOut out s).ovr = s.ovr := by cases out <;> rfl

@[simp] theorem writeOut_err (out : Option (List Byte)) (s : State) :
    (writeOut out s).err = s.err := by cases out <;> rfl

@[simp] theorem writeOut_ilen (out : Option (List Byte)) (s : State) :
    (writeOut out s).ilen = s.ilen := by cases out <;> rfl

@[simp] theorem writeOut_result (out : Option (List Byte)) (s : State) :
    (writeOut out s).result = s.result := by cases out <;> rfl

@[simp] theorem writeOut_policy (out : Option (List Byte)) (s : State) :
    (writeOut out s).policy = s.policy := by cases out <;> rfl

@[simp] theorem writeOut_key (out : Option (List Byte)) (s : State) :
    (writeOut out s).key = s.key := by cases out <;> rfl

@[simp] theorem writeOut_phase (out : Option (List Byte)) (s : State) :
    (writeOut out s).phase = s.phase := by cases out <;> rfl

@[simp] theorem writeOut_pend (out : Option (List Byte)) (s : State) :
    (writeOut out s).pend = s.pend := by cases out <;> rfl

@[simp] theorem writeOut_tables (out : Option (List Byte)) (s : State) :
    (writeOut out s).tables = s.tables := by cases out <;> rfl

@[simp] theorem writeOut_keyIn (out : Option (List Byte)) (s : State) :
    (writeOut out s).keyIn = s.keyIn := by cases out <;> rfl

@[simp] theorem writeOut_hostOps (out : Option (List Byte)) (s : State) :
    (writeOut out s).hostOps = s.hostOps := by cases out <;> rfl

@[simp] theorem writeOut_reads (out : Option (List Byte)) (s : State) :
    (writeOut out s).reads = s.reads := by cases out <;> rfl

@[simp] theorem writeOut_turns (out : Option (List Byte)) (s : State) :
    (writeOut out s).turns = s.turns := by cases out <;> rfl

@[simp] theorem writeResult_cmd (res : Option Word24) (s : State) :
    (writeResult res s).cmd = s.cmd := by cases res <;> rfl

@[simp] theorem writeResult_ovr (res : Option Word24) (s : State) :
    (writeResult res s).ovr = s.ovr := by cases res <;> rfl

@[simp] theorem writeResult_err (res : Option Word24) (s : State) :
    (writeResult res s).err = s.err := by cases res <;> rfl

@[simp] theorem writeResult_ilen (res : Option Word24) (s : State) :
    (writeResult res s).ilen = s.ilen := by cases res <;> rfl

@[simp] theorem writeResult_olen (res : Option Word24) (s : State) :
    (writeResult res s).olen = s.olen := by cases res <;> rfl

@[simp] theorem writeResult_result (res : Option Word24) (s : State) :
    (writeResult res s).result = res.getD s.result := by cases res <;> rfl

@[simp] theorem writeResult_policy (res : Option Word24) (s : State) :
    (writeResult res s).policy = s.policy := by cases res <;> rfl

@[simp] theorem writeResult_mem (res : Option Word24) (s : State) :
    (writeResult res s).mem = s.mem := by cases res <;> rfl

@[simp] theorem writeResult_key (res : Option Word24) (s : State) :
    (writeResult res s).key = s.key := by cases res <;> rfl

@[simp] theorem writeResult_phase (res : Option Word24) (s : State) :
    (writeResult res s).phase = s.phase := by cases res <;> rfl

@[simp] theorem writeResult_pend (res : Option Word24) (s : State) :
    (writeResult res s).pend = s.pend := by cases res <;> rfl

@[simp] theorem writeResult_tables (res : Option Word24) (s : State) :
    (writeResult res s).tables = s.tables := by cases res <;> rfl

@[simp] theorem writeResult_keyIn (res : Option Word24) (s : State) :
    (writeResult res s).keyIn = s.keyIn := by cases res <;> rfl

@[simp] theorem writeResult_hostOps (res : Option Word24) (s : State) :
    (writeResult res s).hostOps = s.hostOps := by cases res <;> rfl

@[simp] theorem writeResult_reads (res : Option Word24) (s : State) :
    (writeResult res s).reads = s.reads := by cases res <;> rfl

@[simp] theorem writeResult_turns (res : Option Word24) (s : State) :
    (writeResult res s).turns = s.turns := by cases res <;> rfl

@[simp] theorem commitOk_cmd (out : Option (List Byte)) (res : Option Word24) (s : State) :
    (commitOk out res s).cmd = s.cmd := by cases out <;> cases res <;> rfl

@[simp] theorem commitOk_ovr (out : Option (List Byte)) (res : Option Word24) (s : State) :
    (commitOk out res s).ovr = s.ovr := by cases out <;> cases res <;> rfl

@[simp] theorem commitOk_err (out : Option (List Byte)) (res : Option Word24) (s : State) :
    (commitOk out res s).err = .ok := by cases out <;> cases res <;> rfl

@[simp] theorem commitOk_ilen (out : Option (List Byte)) (res : Option Word24) (s : State) :
    (commitOk out res s).ilen = s.ilen := by cases out <;> cases res <;> rfl

@[simp] theorem commitOk_olen (out : Option (List Byte)) (res : Option Word24) (s : State) :
    (commitOk out res s).olen = (writeOut out s).olen := by cases out <;> cases res <;> rfl

@[simp] theorem commitOk_result (out : Option (List Byte)) (res : Option Word24) (s : State) :
    (commitOk out res s).result = res.getD s.result := by cases out <;> cases res <;> rfl

@[simp] theorem commitOk_policy (out : Option (List Byte)) (res : Option Word24) (s : State) :
    (commitOk out res s).policy = s.policy := by cases out <;> cases res <;> rfl

@[simp] theorem commitOk_mem (out : Option (List Byte)) (res : Option Word24) (s : State) :
    (commitOk out res s).mem = (writeOut out s).mem := by cases out <;> cases res <;> rfl

@[simp] theorem commitOk_key (out : Option (List Byte)) (res : Option Word24) (s : State) :
    (commitOk out res s).key = s.key := by cases out <;> cases res <;> rfl

@[simp] theorem commitOk_phase (out : Option (List Byte)) (res : Option Word24) (s : State) :
    (commitOk out res s).phase = s.phase := by cases out <;> cases res <;> rfl

@[simp] theorem commitOk_pend (out : Option (List Byte)) (res : Option Word24) (s : State) :
    (commitOk out res s).pend = false := by cases out <;> cases res <;> rfl

@[simp] theorem commitOk_tables (out : Option (List Byte)) (res : Option Word24) (s : State) :
    (commitOk out res s).tables = s.tables := by cases out <;> cases res <;> rfl

@[simp] theorem commitOk_keyIn (out : Option (List Byte)) (res : Option Word24) (s : State) :
    (commitOk out res s).keyIn = s.keyIn := by cases out <;> cases res <;> rfl

@[simp] theorem commitOk_hostOps (out : Option (List Byte)) (res : Option Word24) (s : State) :
    (commitOk out res s).hostOps = s.hostOps := by cases out <;> cases res <;> rfl

@[simp] theorem commitOk_reads (out : Option (List Byte)) (res : Option Word24) (s : State) :
    (commitOk out res s).reads = s.reads := by cases out <;> cases res <;> rfl

@[simp] theorem commitOk_turns (out : Option (List Byte)) (res : Option Word24) (s : State) :
    (commitOk out res s).turns = s.turns := by cases out <;> cases res <;> rfl

@[simp] theorem writeOut_none (s : State) : writeOut none s = s := rfl

@[simp] theorem writeOut_some_mem (bs : List Byte) (s : State) :
    (writeOut (some bs) s).mem = s.mem.store obufBase bs := rfl

@[simp] theorem writeOut_some_olen (bs : List Byte) (s : State) :
    (writeOut (some bs) s).olen = BitVec.ofNat 9 bs.length := rfl

@[simp] theorem unlessBusy_of_busy {s t : State} (h : s.busy = true) :
    unlessBusy s t = { s with ovr := true } := by simp [unlessBusy, h]

@[simp] theorem unlessBusy_of_idle {s t : State} (h : s.busy = false) : unlessBusy s t = t := by
  simp [unlessBusy, h]

theorem State.busy_eq_true_iff (s : State) :
    s.busy = true ↔ s.phase = .constructing ∨ s.pend = true := by
  simp [State.busy]

theorem State.busy_eq_false_iff (s : State) :
    s.busy = false ↔ s.phase = .ready ∧ s.pend = false := by
  cases h : s.phase <;> simp [State.busy, h]

/-- The tables depend on the instance's permutation and the key alone (R9b). -/
theorem State.perm_congr {s t : State} (h : s.tables = t.tables) (k : s.key = t.key) :
    s.perm = t.perm := by
  simp [State.perm, h, k]

@[simp] theorem popTurn_busy (s : State) : s.popTurn.busy = s.busy := rfl

@[simp] theorem popTurn_perm (s : State) : s.popTurn.perm = s.perm := rfl

@[simp] theorem State.inv_fwd (s : State) (i : Word24) : s.inv (s.fwd i) = i := by
  simp [State.inv, State.fwd]

@[simp] theorem State.fwd_inv (s : State) (c : Word24) : s.fwd (s.inv c) = c := by
  simp [State.inv, State.fwd]

end Sys2Proof.Machine
end

