-- ==== Sys2Proof/Laws/Strings.lean ====
section
/-! SUPPORT. The lengths of the byte-string functions, and their small laws. -/

namespace Sys2Proof.Machine

@[simp] theorem length_getCode (p : Perm24) (b0 b1 b2 : Byte) : (getCode p b0 b1 b2).length = 3 := rfl

@[simp] theorem length_getOriginal (p : Perm24) (g : Word24) : (getOriginal p g).length = 3 := rfl

@[simp] theorem length_decGroup (p : Perm24) (h0 h1 h2 : Byte) : (decGroup p h0 h1 h2).length = 3 := rfl

/-- `len(EncBlocks(s))` is the length of the complete groups of `s`. -/
theorem length_encBlocks (p : Perm24) (s : List Byte) :
    (encBlocks p s).length = 3 * (s.length / 3) := by
  induction s using encBlocks.induct with
  | case1 b0 b1 b2 rest ih =>
    simp only [encBlocks, List.length_append, length_getCode, ih, List.length_cons]
    omega
  | case2 s hs =>
    rcases s with - | ⟨a, - | ⟨b, - | ⟨c, r⟩⟩⟩
    · simp [encBlocks]
    · simp [encBlocks]
    · simp [encBlocks]
    · exact absurd rfl (hs a b c r)

/-- `len(DecBlocks(s, n)) = 3·min(n, G)` (R107), as a lemma for sizes. -/
theorem length_decBlocks (p : Perm24) (n : Nat) (s : List Byte) :
    (decBlocks p n s).length = 3 * min n (s.length / 3) := by
  induction n generalizing s with
  | zero => simp [decBlocks]
  | succ n ih =>
    rcases s with - | ⟨a, - | ⟨b, - | ⟨c, r⟩⟩⟩
    · simp [decBlocks]
    · simp [decBlocks]
    · simp [decBlocks]
    · simp only [decBlocks, List.length_append, length_decGroup, ih, List.length_cons]
      omega

theorem length_decAll (p : Perm24) (s : List Byte) : (decAll p s).length = 3 * (s.length / 3) := by
  simp [decAll, length_decBlocks]

theorem le_ceil8 (n : Nat) : n ≤ ceil8 n := by
  unfold ceil8
  omega

@[simp] theorem length_padTo8 (s : List Byte) : (padTo8 s).length = ceil8 s.length := by
  have := le_ceil8 s.length
  simp [padTo8, zeros]
  omega

@[simp] theorem length_xorFrom (key : Key) (j : Nat) (s : List Byte) :
    (xorFrom key j s).length = s.length := by
  induction s generalizing j with
  | nil => rfl
  | cons b rest ih => simp [xorFrom, ih]

@[simp] theorem length_xorStream (key : Key) (s : List Byte) :
    (xorStream key s).length = ceil8 s.length := by
  simp [xorStream]

theorem length_frameBody (m : List Byte) : (frameBody m).length = m.length + 2 := by
  simp [frameBody]

/-- The frame is whole blocks: `F(L)` bytes (R153), as a lemma for sizes. -/
theorem length_frame (m : List Byte) : (frame m).length = frameLength m.length := by
  simp only [frame, List.length_append, length_frameBody, List.length_replicate, padCount,
    frameLength, frameBlocks]
  omega

/-- What UNFRAME extracts is no longer than a length byte can say. -/
theorem length_of_unframe {d out : List Byte} (h : unframe d = .ok out) : out.length ≤ 255 := by
  cases d with
  | nil => simp [unframe] at h
  | cons first rest =>
    simp only [unframe] at h
    have hf := first.isLt
    split at h
    · cases h
    · split at h
      · cases h
      · split at h
        · cases h
        · split at h
          · cases h
            simp only [List.length_take]
            omega
          · cases h

/-- The errors UNFRAME can give (R154). -/
theorem unframe_error_cases {d : List Byte} {e : ErrCode} (h : unframe d = .error e) :
    e = .invalidLength ∨ e = .invalidPadding ∨ e = .checksumMismatch := by
  cases d with
  | nil => exact Or.inl (by simpa [unframe] using h.symm)
  | cons first rest =>
    simp only [unframe] at h
    split at h
    · cases h; simp
    · split at h
      · cases h; simp
      · split at h
        · cases h; simp
        · split at h
          · cases h
          · cases h; simp

theorem length_encryptBytes (p : Perm24) (key : Key) (m : List Byte) :
    (encryptBytes p key m).length = ceil8 (frameLength m.length) := by
  simp only [encryptBytes, length_xorStream, length_encBlocks, length_frame, frameLength]
  congr 1
  omega

/-- On hexadecimal digits the source's integer of a chunk is their big-endian value, whatever the open
`Config.nonHexInt` is. -/
theorem srcHexInt_of_hexvals {t : List Char} {ds : List Nat} (h : hexvals t = some ds) :
    srcHexInt t = digitsValue ds := by
  simp [srcHexInt, h]

end Sys2Proof.Machine
end

