-- ==== Sys2Proof/Laws/Exec.lean ====
section
/-! SUPPORT. What a command can do, said once: it answers a next state, by one of the two commits. -/

namespace Sys2Proof.Machine

@[simp] theorem length_input (s : State) : s.input.length = s.ilen.toNat := by
  simp [State.input]

theorem withInput_of_le {limit : Nat} {body : List Byte → State → State} {s : State}
    (h : s.ilen.toNat ≤ limit) : withInput limit body s = body s.input s := by
  simp [withInput, Nat.not_lt.mpr h]

theorem withInput_of_lt {limit : Nat} {body : List Byte → State → State} {s : State}
    (h : limit < s.ilen.toNat) : withInput limit body s = raiseErr .badArgument s := by
  simp [withInput, h]

theorem raiseErr_eq_afterError (e : ErrCode) (s : State) : raiseErr e s = afterError e s := rfl

/-- The success commit of a string that fits OBUF, as what it leaves. -/
theorem commitOk_commitsString (out : List Byte) (res : Option Word24) (s : State)
    (hm : Memory.wf s.mem) (hl : out.length ≤ bufSize) :
    CommitsString out (res.getD s.result) s (commitOk (some out) res s) where
  olen := by
    simp only [commitOk_olen, writeOut_some_olen, BitVec.toNat_ofNat]
    exact Nat.mod_eq_of_lt (by unfold bufSize at hl; omega)
  bytes j hj := by
    simp only [State.obuf, commitOk_mem, writeOut_some_mem]
    exact Memory.read_store_inside s.mem obufBase j out hm hj
  others a ha := by
    simp only [commitOk_mem, writeOut_some_mem]
    exact Memory.read_store_other s.mem obufBase a out hm ha
  rest := by cases res <;> rfl

/-- The output of a state that a string was committed to. -/
theorem CommitsString.output_eq {out : List Byte} {r : Word24} {s t : State}
    (h : CommitsString out r s t) : t.output = out := by
  apply List.ext_getElem
  · simp [State.output, h.olen]
  · intro j h1 h2
    have := Memory.getD_load t.mem obufBase t.olen.toNat j (by rw [h.olen]; exact h2)
    have hb := h.bytes j h2
    simp only [State.obuf] at hb
    have hl : j < t.olen.toNat := by simpa [State.output] using h1
    rw [hb] at this
    simpa [State.output, List.getD_eq_getElem?_getD, hl, h2] using this

/-- An error commit that the block may make. -/
def BlockError (s t : State) : Prop := ∃ e : ErrCode, e.ofBlock = true ∧ e ≠ .ok ∧ t = raiseErr e s

/-- The success commit of a command `i`: a string that fits OBUF where the command writes one, a
RESULT where it writes one. -/
def BlockSuccess (i : Instr) (s t : State) : Prop :=
  ∃ (out : Option (List Byte)) (res : Option Word24), t = commitOk out res s ∧
    out.isSome = writesObuf i ∧ res.isSome = writesResult i ∧
    ∀ bs, out = some bs → bs.length ≤ bufSize

theorem blockError_of (e : ErrCode) (s : State) (h : e.ofBlock = true) (hne : e ≠ .ok) :
    BlockError s (raiseErr e s) := ⟨e, h, hne, rfl⟩

theorem withInput_cases {i : Instr} {limit : Nat} {body : List Byte → State → State} {s : State}
    (h : s.ilen.toNat ≤ limit → BlockError s (body s.input s) ∨ BlockSuccess i s (body s.input s)) :
    BlockError s (withInput limit body s) ∨ BlockSuccess i s (withInput limit body s) := by
  by_cases hl : s.ilen.toNat ≤ limit
  · rw [withInput_of_le hl]
    exact h hl
  · rw [withInput_of_lt (Nat.lt_of_not_le hl)]
    exact Or.inl (blockError_of _ _ rfl (by simp))

theorem commitString_cases {i : Instr} {s : State} {r : Except ErrCode (List Byte)}
    (ho : writesObuf i = true) (hr : writesResult i = false)
    (hok : ∀ out, r = .ok out → out.length ≤ bufSize)
    (herr : ∀ e, r = .error e → e.ofBlock = true ∧ e ≠ .ok) :
    BlockError s (commitString r s) ∨ BlockSuccess i s (commitString r s) := by
  cases r with
  | ok out =>
    refine Or.inr ⟨some out, none, rfl, ho.symm, hr.symm, ?_⟩
    rintro bs ⟨⟩
    exact hok out rfl
  | error e => exact Or.inl (blockError_of e s (herr e rfl).1 (herr e rfl).2)

theorem unframe_commit_cases {i : Instr} {s : State} {d : List Byte}
    (ho : writesObuf i = true) (hr : writesResult i = false) :
    BlockError s (commitString (unframe d) s) ∨ BlockSuccess i s (commitString (unframe d) s) := by
  refine commitString_cases ho hr (fun out h => ?_) (fun e h => ?_)
  · exact (length_of_unframe h).trans (by decide)
  · rcases unframe_error_cases h with rfl | rfl | rfl <;> decide

theorem ceil8_le_bufSize {n : Nat} (h : n ≤ 264) : ceil8 n ≤ bufSize := by
  unfold ceil8 bufSize
  omega

theorem frameLength_le {n : Nat} (h : n ≤ 255) : frameLength n ≤ 258 := by
  unfold frameLength frameBlocks
  omega

/-- Every command answers a next state, and that state is an error commit of the block or the
command's success commit. -/
theorem exec_commits (i : Instr) (s : State) :
    ∃ t, exec i s = .next t ∧ (BlockError s t ∨ BlockSuccess i s t) := by
  cases i with
  | nop => exact ⟨_, rfl, Or.inr ⟨none, none, rfl, rfl, rfl, by simp⟩⟩
  | rdfwd i => exact ⟨_, rfl, Or.inr ⟨none, some (s.fwd i), rfl, rfl, rfl, by simp⟩⟩
  | rdinv c => exact ⟨_, rfl, Or.inr ⟨none, some (s.inv c), rfl, rfl, rfl, by simp⟩⟩
  | getcode x y z =>
    refine ⟨_, rfl, Or.inr ⟨some (getCode s.perm x y z), some _, rfl, rfl, rfl, ?_⟩⟩
    rintro bs ⟨⟩
    simp [bufSize]
  | getorig g =>
    refine ⟨_, rfl, Or.inr ⟨some (getOriginal s.perm g), some _, rfl, rfl, rfl, ?_⟩⟩
    rintro bs ⟨⟩
    simp [bufSize]
  | encblk =>
    refine ⟨_, rfl, withInput_cases fun h => ?_⟩
    unfold encblkBody
    split
    · refine Or.inr ⟨some _, none, rfl, rfl, rfl, ?_⟩
      rintro bs ⟨⟩
      simp only [length_encBlocks, length_input, bufSize, maxInput] at *
      omega
    · exact Or.inl (blockError_of _ _ rfl (by simp))
  | decblk =>
    refine ⟨_, rfl, withInput_cases fun h => Or.inr ⟨some _, none, rfl, rfl, rfl, ?_⟩⟩
    rintro bs ⟨⟩
    simp only [length_decAll, length_input, bufSize, maxInput] at *
    omega
  | xorks =>
    refine ⟨_, rfl, withInput_cases fun h => Or.inr ⟨some _, none, rfl, rfl, rfl, ?_⟩⟩
    rintro bs ⟨⟩
    simpa using ceil8_le_bufSize h
  | csum => exact ⟨_, rfl, withInput_cases fun _ => Or.inr ⟨none, some _, rfl, rfl, rfl, by simp⟩⟩
  | frame =>
    refine ⟨_, rfl, withInput_cases fun h => Or.inr ⟨some _, none, rfl, rfl, rfl, ?_⟩⟩
    rintro bs ⟨⟩
    rw [length_frame, length_input]
    exact (frameLength_le h).trans (by decide)
  | unframe => exact ⟨_, rfl, withInput_cases fun _ => unframe_commit_cases rfl rfl⟩
  | encrypt =>
    refine ⟨_, rfl, withInput_cases fun h => Or.inr ⟨some _, none, rfl, rfl, rfl, ?_⟩⟩
    rintro bs ⟨⟩
    rw [length_encryptBytes, length_input]
    exact ceil8_le_bufSize ((frameLength_le h).trans (by decide))
  | decrypt => exact ⟨_, rfl, withInput_cases fun _ => unframe_commit_cases rfl rfl⟩

/-- The inversion lemma of `exec`: nothing else can happen. -/
theorem exec_cases {i : Instr} {s t : State} (h : exec i s = .next t) :
    BlockError s t ∨ BlockSuccess i s t := by
  obtain ⟨t', h', hc⟩ := exec_commits i s
  rw [h] at h'
  cases h'
  exact hc

/-- Two states that a command reads alike: the same input, key, tables and policy. -/
structure ReadAlike (s u : State) : Prop where
  ilen : u.ilen = s.ilen
  input : u.input = s.input
  perm : u.perm = s.perm
  key : u.key = s.key
  policy : u.policy = s.policy

/-- Two next states that are the same commit of two states. -/
def SameCommit (s u t v : State) : Prop :=
  (∃ e, t = raiseErr e s ∧ v = raiseErr e u) ∨
    ∃ out res, t = commitOk out res s ∧ v = commitOk out res u

theorem withInput_sameCommit {limit : Nat} {body : List Byte → State → State} {s u : State}
    (h : ReadAlike s u) (hb : SameCommit s u (body s.input s) (body s.input u)) :
    SameCommit s u (withInput limit body s) (withInput limit body u) := by
  unfold withInput
  rw [h.ilen, h.input]
  split
  · exact Or.inl ⟨_, rfl, rfl⟩
  · exact hb

theorem commitString_sameCommit (r : Except ErrCode (List Byte)) (s u : State) :
    SameCommit s u (commitString r s) (commitString r u) := by
  cases r with
  | ok out => exact Or.inr ⟨some out, none, rfl, rfl⟩
  | error e => exact Or.inl ⟨e, rfl, rfl⟩

/-- What a command commits depends on nothing but its input, KEY, the tables and the policy. -/
theorem exec_sameCommit (i : Instr) {s u : State} (h : ReadAlike s u) :
    ∃ t v, exec i s = .next t ∧ exec i u = .next v ∧ SameCommit s u t v := by
  have hp := h.perm
  have hk := h.key
  have hpol := h.policy
  have ok : ∀ out res, SameCommit s u (commitOk out res s) (commitOk out res u) :=
    fun out res => Or.inr ⟨out, res, rfl, rfl⟩
  cases i with
  | nop => exact ⟨_, _, rfl, rfl, ok _ _⟩
  | rdfwd i => exact ⟨_, _, rfl, rfl, by simpa [State.fwd, hp] using ok none (some (s.perm i))⟩
  | rdinv c => exact ⟨_, _, rfl, rfl, by simpa [State.inv, hp] using ok none (some (s.perm.symm c))⟩
  | getcode x y z =>
    exact ⟨_, _, rfl, rfl, by simpa only [State.fwd, hp] using ok (some (getCode s.perm x y z)) _⟩
  | getorig g =>
    exact ⟨_, _, rfl, rfl, by simpa only [State.inv, hp] using ok (some (getOriginal s.perm g)) _⟩
  | encblk =>
    refine ⟨_, _, rfl, rfl, withInput_sameCommit h ?_⟩
    unfold encblkBody
    rw [hp]
    split
    · exact ok _ _
    · exact Or.inl ⟨_, rfl, rfl⟩
  | decblk => exact ⟨_, _, rfl, rfl, withInput_sameCommit h (by rw [hp]; exact ok _ _)⟩
  | xorks => exact ⟨_, _, rfl, rfl, withInput_sameCommit h (by rw [hk]; exact ok _ _)⟩
  | csum => exact ⟨_, _, rfl, rfl, withInput_sameCommit h (ok _ _)⟩
  | frame => exact ⟨_, _, rfl, rfl, withInput_sameCommit h (ok _ _)⟩
  | unframe => exact ⟨_, _, rfl, rfl, withInput_sameCommit h (commitString_sameCommit _ _ _)⟩
  | encrypt => exact ⟨_, _, rfl, rfl, withInput_sameCommit h (by rw [hp, hk]; exact ok _ _)⟩
  | decrypt =>
    exact ⟨_, _, rfl, rfl,
      withInput_sameCommit h (by rw [hp, hk, hpol]; exact commitString_sameCommit _ _ _)⟩

end Sys2Proof.Machine
end

