-- ==== Sys2Proof/Laws/PerInstr.lean ====
section
/-! SUPPORT. A family of statements made per instruction: the fields of a command's word are those its
row of the opcode table gives it (spec 30_encoding.md R80 to R82), so the word is well formed. -/

namespace Sys2Proof.Laws

/-- The word of the command has its opcode in OP and its operand in IMM, and a Z-form command, which
is one whose word is its opcode alone, has IMM zero. -/
def WordFields.Statement (i : Instr) : Prop :=
  opField (encode i) = opcodeOf i ∧ immField (encode i) = immOf i ∧
    ((opcodeOf i).toNat ∈ [1, 2, 3, 4] ∨ immField (encode i) = 0#24)

theorem wordFields_of (i : Instr) (h : (opcodeOf i).toNat ∈ [1, 2, 3, 4] ∨ immOf i = 0#24) :
    WordFields.Statement i := by
  refine ⟨opField_commandWord _ _, immField_commandWord _ _, h.imp_right fun h => ?_⟩
  exact (immField_commandWord _ _).trans h

namespace WordFields

theorem nop : Statement .nop := wordFields_of _ (Or.inr rfl)

theorem rdfwd (i : Word24) : Statement (.rdfwd i) := wordFields_of _ (Or.inl (by simp [opcodeOf]))

theorem rdinv (c : Word24) : Statement (.rdinv c) := wordFields_of _ (Or.inl (by simp [opcodeOf]))

theorem getcode (x y z : Byte) : Statement (.getcode x y z) :=
  wordFields_of _ (Or.inl (by simp [opcodeOf]))

theorem getorig (g : Word24) : Statement (.getorig g) := wordFields_of _ (Or.inl (by simp [opcodeOf]))

theorem encblk : Statement .encblk := wordFields_of _ (Or.inr rfl)

theorem decblk : Statement .decblk := wordFields_of _ (Or.inr rfl)

theorem xorks : Statement .xorks := wordFields_of _ (Or.inr rfl)

theorem csum : Statement .csum := wordFields_of _ (Or.inr rfl)

theorem frame : Statement .frame := wordFields_of _ (Or.inr rfl)

theorem unframe : Statement .unframe := wordFields_of _ (Or.inr rfl)

theorem encrypt : Statement .encrypt := wordFields_of _ (Or.inr rfl)

theorem decrypt : Statement .decrypt := wordFields_of _ (Or.inr rfl)

end WordFields

end Sys2Proof.Laws
end

