-- ==== Sys2Proof/Laws/Step.lean ====
section
/-! SUPPORT. What a step can do, said once: the inversion lemmas of the port, of the host's move and of
the step. -/

namespace Sys2Proof.Machine

/-- The buffer words an address can reach: 0 to 65 (R51). -/
theorem portReg_ibuf {a : PortAddr} {w : Nat} (h : portReg a = .ibuf w) : w ≤ 65 := by
  simp only [portReg] at h
  split_ifs at h
  cases h
  omega

theorem portReg_obuf {a : PortAddr} {w : Nat} (h : portReg a = .obuf w) : w ≤ 65 := by
  simp only [portReg] at h
  split_ifs at h
  cases h
  omega

@[simp] theorem length_wordBytes (v : Word) : (wordBytes v).length = 4 := rfl

/-- The effect of a host write, by what it reaches (R57). -/
inductive WriteEffect (s : State) (a : PortAddr) (v : Word) (t : State) : Prop
  /-- Reserved, read-only, or a STATUS write with bit 2 = 0. -/
  | none (h : t = s)
  /-- Blocked: CMD, ILEN or IBUF while BUSY. -/
  | blocked (hb : s.busy = true)
      (hr : portReg a = .cmd ∨ portReg a = .ilen ∨ ∃ w, portReg a = .ibuf w)
      (h : t = { s with ovr := true })
  /-- A command is accepted. -/
  | accept (hb : s.busy = false) (hr : portReg a = .cmd) (h : t = { s with cmd := v, pend := true })
  /-- ILEN is written. -/
  | length (hb : s.busy = false) (hr : portReg a = .ilen)
      (h : t = { s with ilen := v.extractLsb' 0 9 })
  /-- A word of IBUF is written. -/
  | word (w : Nat) (hw : w ≤ 65) (hb : s.busy = false) (hr : portReg a = .ibuf w)
      (h : t = { s with mem := s.mem.storeWord (ibufBase + 4 * w) v })
  /-- OVR is cleared. -/
  | clear (hr : portReg a = .status) (hv : v.getLsbD 2 = true) (h : t = { s with ovr := false })

theorem memWrite_effect (s : State) (a : PortAddr) (v : Word) :
    WriteEffect s a v (memWrite s a v) := by
  unfold memWrite
  cases hr : portReg a with
  | cmd =>
    cases hb : s.busy with
    | true => exact .blocked hb (Or.inl hr) (unlessBusy_of_busy hb)
    | false => exact .accept hb hr (unlessBusy_of_idle hb)
  | ilen =>
    cases hb : s.busy with
    | true => exact .blocked hb (Or.inr (Or.inl hr)) (unlessBusy_of_busy hb)
    | false => exact .length hb hr (unlessBusy_of_idle hb)
  | ibuf w =>
    cases hb : s.busy with
    | true => exact .blocked hb (Or.inr (Or.inr ⟨w, hr⟩)) (unlessBusy_of_busy hb)
    | false => exact .word w (portReg_ibuf hr) hb hr (unlessBusy_of_idle hb)
  | status =>
    by_cases hv : v.getLsbD 2 = true
    · exact .clear hr hv (if_pos hv)
    · exact .none (if_neg hv)
  | id => exact .none rfl
  | olen => exact .none rfl
  | result => exact .none rfl
  | config => exact .none rfl
  | obuf w => exact .none rfl
  | reserved => exact .none rfl

/-- The effect of a host move. -/
inductive MoveEffect (s t : State) : Prop
  /-- The host has no operation left. -/
  | idle (h : s.hostOps = []) (ht : t = s)
  /-- A write. -/
  | write (a : PortAddr) (v : Word) (rest : List HostOp) (h : s.hostOps = .wr a v :: rest)
      (ht : WriteEffect { s with hostOps := rest } a v t)
  /-- A read: `rd`, `rd ==`, `poll` or `readout`. -/
  | read (a : PortAddr) (x : Option Word) (ops : List HostOp)
      (h : s.hostOps.head? ≠ some .reset) (ht : t = hostRead { s with hostOps := ops } a x)
  /-- A key is presented on the pins. -/
  | drive (k : Key) (rest : List HostOp) (h : s.hostOps = .driveKey k :: rest)
      (ht : t = { s with hostOps := rest, keyIn := k })
  /-- The reset event. -/
  | reset (rest : List HostOp) (h : s.hostOps = .reset :: rest)
      (ht : t = resetEvent { s with hostOps := rest })

theorem hostMove_effect (s : State) : MoveEffect s (hostMove s) := by
  unfold hostMove
  rcases hs : s.hostOps with - | ⟨op, rest⟩
  · exact .idle hs rfl
  · cases op with
    | wr a v => exact .write a v rest hs (memWrite_effect _ _ _)
    | rd a => exact .read a none rest (by simp [hs]) rfl
    | rdEq a v => exact .read a (some v) rest (by simp [hs]) rfl
    | poll =>
      by_cases hb : (memRead s (portAddr 0x008)).getLsbD 0 = true
      · simp only [hb, if_true]
        exact .read (portAddr 0x008) none s.hostOps (by simp [hs]) rfl
      · simp only [hb]
        exact .read (portAddr 0x008) none rest (by simp [hs]) rfl
    | readout => exact .read (portAddr 0x010) none _ (by simp [hs]) rfl
    | driveKey k => exact .drive k rest hs rfl
    | reset => exact .reset rest hs rfl

/-- The command step answers a next state, by a commit. -/
theorem commandStep_commits (s : State) :
    ∃ t, commandStep s = .next t ∧
      (BlockError s t ∨ ∃ i, decode s.cmd = .ok i ∧ BlockSuccess i s t) := by
  unfold commandStep
  cases hd : decode s.cmd with
  | ok i =>
    obtain ⟨t, ht, hc⟩ := exec_commits i s
    exact ⟨t, ht, hc.imp_right fun h => ⟨i, rfl, h⟩⟩
  | error x => exact ⟨_, rfl, Or.inl (blockError_of _ _ rfl (by simp))⟩

/-- The effect of a step. -/
inductive StepEffect (s t : State) : Prop
  /-- The build step. -/
  | build (ha : nextAgent s = .engine) (hp : s.phase = .constructing)
      (ht : t = buildTables s.popTurn)
  /-- A command step that ends in an error commit. -/
  | error (ha : nextAgent s = .engine) (hp : s.phase = .ready) (hd : s.pend = true)
      (ht : BlockError s.popTurn t)
  /-- A command step that ends in a success commit. -/
  | success (i : Instr) (ha : nextAgent s = .engine) (hp : s.phase = .ready) (hd : s.pend = true)
      (hi : decode s.cmd = .ok i) (ht : BlockSuccess i s.popTurn t)
  /-- The engine has no enabled step. -/
  | rest (ha : nextAgent s = .engine) (hp : s.phase = .ready) (hd : s.pend = false)
      (ht : t = s.popTurn)
  /-- The host moves. -/
  | host (ha : nextAgent s = .host) (ht : MoveEffect s.popTurn t)

theorem engineStep_ready {s : State} (hp : s.phase = .ready) (hd : s.pend = true) :
    engineStep s = commandStep s := by simp [engineStep, hp, hd]

/-- The inversion lemma of the step, with the state it answers. -/
theorem step_effect (s : State) : ∃ t, step s = .next t ∧ StepEffect s t := by
  unfold step
  cases ha : nextAgent s with
  | host => exact ⟨_, rfl, .host ha (hostMove_effect _)⟩
  | engine =>
    simp only
    cases hp : s.phase with
    | constructing =>
      exact ⟨buildTables s.popTurn, by simp [engineStep, hp], .build ha hp rfl⟩
    | ready =>
      cases hd : s.pend with
      | false => exact ⟨s.popTurn, by simp [engineStep, hp, hd], .rest ha hp hd rfl⟩
      | true =>
        obtain ⟨t, ht, hc⟩ := commandStep_commits s.popTurn
        refine ⟨t, by rw [engineStep_ready (by simpa using hp) (by simpa using hd), ht], ?_⟩
        rcases hc with hc | ⟨i, hi, hc⟩
        · exact .error ha hp hd hc
        · exact .success i ha hp hd (by simpa using hi) hc

theorem step_cases {s t : State} (h : step s = .next t) : StepEffect s t := by
  obtain ⟨t', h', hc⟩ := step_effect s
  rw [h] at h'
  cases h'
  exact hc

/-- The success commit, read as what it leaves in memory: nothing outside OBUF. -/
theorem BlockSuccess.read_other {i : Instr} {s t : State} (h : BlockSuccess i s t)
    (hm : Memory.wf s.mem) {a : Nat} (ha : ¬(obufBase ≤ a ∧ a < obufBase + bufSize)) :
    t.mem.read a = s.mem.read a := by
  obtain ⟨out, res, rfl, -, -, hl⟩ := h
  cases out with
  | none => simp
  | some bs =>
    have := hl bs rfl
    simp only [commitOk_mem, writeOut_some_mem]
    exact Memory.read_store_other _ _ _ _ hm (by omega)

theorem BlockSuccess.mem_wf {i : Instr} {s t : State} (h : BlockSuccess i s t)
    (hm : Memory.wf s.mem) : Memory.wf t.mem := by
  obtain ⟨out, res, rfl, -⟩ := h
  cases out with
  | none => simpa using hm
  | some bs => simpa using Memory.store_wf _ _ _ hm

theorem WriteEffect.mem_wf {s t : State} {a : PortAddr} {v : Word} (h : WriteEffect s a v t)
    (hm : Memory.wf s.mem) : Memory.wf t.mem := by
  cases h with
  | none h => exact h ▸ hm
  | blocked hb hr h => exact h ▸ hm
  | accept hb hr h => exact h ▸ hm
  | length hb hr h => exact h ▸ hm
  | word w hw hb hr h => exact h ▸ Memory.store_wf _ _ _ hm
  | clear hr hv h => exact h ▸ hm

end Sys2Proof.Machine
end

