-- ==== Sys2Proof/Tests/Slice0.lean ====
section
/-! SUPPORT. The model's own tests: words and results from spec/95_test_vectors.md (V3 to V14) and the
rules' examples, the refusals of the WellFormed checks, and a witness for the hypotheses of each
obligation that has some. -/

namespace Sys2Proof.Tests

open Sys2Proof.Machine

/-- The tests' block: TESTPERM, the key of 95_test_vectors.md, an accepted command, and an input. -/
def block (input : List Byte) : State :=
  { State.reset with
    tables := .testPerm, key := 0x2AFBAECAD43128E3#64, phase := .ready, pend := true,
    ilen := BitVec.ofNat 9 input.length, mem := Memory.store [] ibufBase input }

/-- The tests' block with an ILEN of its own and IBUF zero. -/
def blockLen (n : Nat) : State := { block [] with ilen := BitVec.ofNat 9 n }

/-- The same block, idle, with what the host is to do. -/
def idle (ops : List HostOp) : State := { block [] with pend := false, hostOps := ops }

/-- What a command leaves: ERR, OLEN, RESULT, and the output string. -/
def left (o : Host.Outcome State Fault Refusal) : Option (ErrCode × Nat × Nat × List Byte) :=
  match o with
  | .next t => some (t.err, t.olen.toNat, t.result.toNat, t.output)
  | .fault _ => none
  | .refused _ => none

/-- "Hello" (I4). -/
def hello : List Byte := [0x48#8, 0x65#8, 0x6C#8, 0x6C#8, 0x6F#8]

/-- The frame of "Hello" (V7). -/
def helloFrame : List Byte :=
  [0x05#8, 0x48#8, 0x65#8, 0x6C#8, 0x6C#8, 0x6F#8, 0x7C#8, 0x02#8, 0x02#8]

/-- The hash bytes of "Hello" (V4). -/
def helloHash : List Byte :=
  [0x70#8, 0x9C#8, 0x0C#8, 0x73#8, 0x52#8, 0x3F#8, 0xC3#8, 0x40#8, 0x1C#8]

/-- The ciphertext of "Hello" (V9). -/
def helloCipher : List Byte :=
  [0x5A#8, 0x67#8, 0xA2#8, 0xB9#8, 0x86#8, 0x0E#8, 0xEB#8, 0xA3#8,
   0x36#8, 0xFB#8, 0xAE#8, 0xCA#8, 0xD4#8, 0x31#8, 0x28#8, 0xE3#8]

/-! Well-formedness: each check refuses an ill-formed term. -/

theorem test_wf_refuses_unassigned_opcode : commandWordWF 0x0000000D#32 = false := by decide

theorem test_wf_refuses_last_opcode : commandWordWF 0x000000FF#32 = false := by decide

theorem test_wf_refuses_nop_with_operand : commandWordWF 0x00000100#32 = false := by decide

theorem test_wf_refuses_decrypt_with_operand : commandWordWF 0xFFFFFF0C#32 = false := by decide

theorem test_wf_accepts_getcode : commandWordWF 0x6C654803#32 = true := by decide

theorem test_wf_refuses_unknown_mnemonic : AsmLine.wf ⟨"JUMP".toList, []⟩ = false := by decide

theorem test_wf_refuses_operand_of_nop : AsmLine.wf ⟨"NOP".toList, [0]⟩ = false := by decide

theorem test_wf_refuses_missing_operand : AsmLine.wf ⟨"RDFWD".toList, []⟩ = false := by decide

theorem test_wf_refuses_wide_immediate : AsmLine.wf ⟨"RDINV".toList, [0x1000000]⟩ = false := by
  decide

theorem test_wf_refuses_two_coordinates : AsmLine.wf ⟨"GETCODE".toList, [1, 2]⟩ = false := by decide

theorem test_wf_refuses_wide_coordinate : AsmLine.wf ⟨"GETCODE".toList, [1, 256, 2]⟩ = false := by
  decide

/-! Decoding: a word of every command, from R82, V3, V13 and the programs P1 to P5. -/

theorem test_decode_nop : decode 0x00000000#32 = .ok .nop := by decide

theorem test_decode_rdfwd : decode 0xFFFFFF01#32 = .ok (.rdfwd 0xFFFFFF#24) := by decide

theorem test_decode_rdinv : decode 0x12345702#32 = .ok (.rdinv 0x123457#24) := by decide

theorem test_decode_getcode : decode 0x6C654803#32 = .ok (.getcode 0x48#8 0x65#8 0x6C#8) := by decide

theorem test_decode_getorig : decode 0xBF2E3004#32 = .ok (.getorig 0xBF2E30#24) := by decide

theorem test_decode_encblk : decode 0x00000005#32 = .ok .encblk := by decide

theorem test_decode_decblk : decode 0x00000006#32 = .ok .decblk := by decide

theorem test_decode_xorks : decode 0x00000007#32 = .ok .xorks := by decide

theorem test_decode_csum : decode 0x00000008#32 = .ok .csum := by decide

theorem test_decode_frame : decode 0x00000009#32 = .ok .frame := by decide

theorem test_decode_unframe : decode 0x0000000A#32 = .ok .unframe := by decide

theorem test_decode_encrypt : decode 0x0000000B#32 = .ok .encrypt := by decide

theorem test_decode_decrypt : decode 0x0000000C#32 = .ok .decrypt := by decide

theorem test_decode_illegal_words :
    decode 0x000000FF#32 = .error (.unassignedOpcode 0xFF#8) ∧
    decode 0x00000100#32 = .error (.reservedOperand 0x00#8 0x000001#24) ∧
    decode 0xFFFFFF0C#32 = .error (.reservedOperand 0x0C#8 0xFFFFFF#24) := by decide

theorem test_encode_getcode : encode (.getcode 0x48#8 0x65#8 0x6C#8) = 0x6C654803#32 := by decide

theorem test_assemble_text : assembleText "GETCODE 0x48, 0x65, 108".toList = some 0x6C654803#32 := by
  decide

theorem test_host_line :
    parseHostLine "rd OBUF+4 == 0x0000006F".toList = some [.rdEq (portAddr 0x304) 0x6F#32] := by decide

theorem test_host_line_with_comment :
    parseHostLine "wr CMD,    0x0000000B        -- ENCRYPT".toList =
      some [.wr (portAddr 0x004) 0x0000000B#32] := by decide

/-! One command each (V3 to V10). -/

theorem test_nop_keeps_outputs :
    left (exec .nop { block [] with err := .invalidPadding, result := 7#24 }) =
      some (.ok, 0, 7, []) := by decide

theorem test_rdfwd_wraps :
    left (exec (.rdfwd 0xFFFFFF#24) (block [])) = some (.ok, 0, 0x123452, []) := by decide

theorem test_rdinv_zero :
    left (exec (.rdinv 0x000000#24) (block [])) = some (.ok, 0, 0x62C255, []) := by decide

theorem test_getcode_hel :
    left (exec (.getcode 0x48#8 0x65#8 0x6C#8) (block [])) =
      some (.ok, 3, 0x302EBF, [0xBF#8, 0x2E#8, 0x30#8]) := by decide

theorem test_getorig_hel :
    left (exec (.getorig 0xBF2E30#24) (block [])) =
      some (.ok, 3, 0x6C6548, [0x48#8, 0x65#8, 0x6C#8]) := by decide

theorem test_encblk_hello :
    left (exec .encblk (block helloFrame)) = some (.ok, 9, 0, helloHash) := by decide

theorem test_encblk_not_whole_blocks :
    left (exec .encblk (blockLen 4)) = some (.badArgument, 0, 0, []) := by decide

theorem test_decblk_discards_partial_group :
    left (exec .decblk (block (helloHash ++ [0x00#8, 0x00#8]))) = some (.ok, 9, 0, helloFrame) := by
  decide

theorem test_decblk_too_long :
    left (exec .decblk (blockLen 265)) = some (.badArgument, 0, 0, []) := by decide

theorem test_xorks_one_byte :
    left (exec .xorks (block [0x00#8])) =
      some (.ok, 8, 0, [0x2A#8, 0xFB#8, 0xAE#8, 0xCA#8, 0xD4#8, 0x31#8, 0x28#8, 0xE3#8]) := by decide

theorem test_xorks_hello : left (exec .xorks (block helloHash)) = some (.ok, 16, 0, helloCipher) := by
  decide

theorem test_csum_hello : left (exec .csum (block hello)) = some (.ok, 0, 0x7C, []) := by decide

theorem test_csum_signed :
    left (exec .csum (block [0x01#8, 0x81#8])) = some (.ok, 0, 0x84, []) := by decide

theorem test_frame_hello : left (exec .frame (block hello)) = some (.ok, 9, 0, helloFrame) := by decide

theorem test_frame_too_long :
    left (exec .frame (blockLen 256)) = some (.badArgument, 0, 0, []) := by decide

theorem test_unframe_long_padding :
    left (exec .unframe (block [0x01#8, 0x41#8, 0x42#8, 0x04#8, 0x04#8, 0x04#8, 0x04#8])) =
      some (.ok, 1, 0, [0x41#8]) := by decide

theorem test_unframe_checksum_outside :
    left (exec .unframe (block [0x02#8, 0x41#8, 0x42#8])) = some (.invalidLength, 0, 0, []) := by decide

theorem test_encrypt_hello :
    left (exec .encrypt (block hello)) = some (.ok, 16, 0, helloCipher) := by decide

theorem test_decrypt_frame_bounded :
    left (exec .decrypt (block helloCipher)) = some (.ok, 5, 0, hello) := by decide

theorem test_decrypt_literal :
    left (exec .decrypt { block helloCipher with policy := .literal }) =
      some (.invalidPadding, 0, 0, []) := by decide

/-! The port and the adapter (V12, V14). -/

theorem test_ilen_drops_high_bits :
    memRead (memWrite (idle []) (portAddr 0x00C) 0xFFFFFE05#32) (portAddr 0x00C) = 0x5#32 := by decide

theorem test_id_is_read_only :
    memRead (memWrite (idle []) (portAddr 0x000) 0x12345678#32) (portAddr 0x000) = 0x53454101#32 := by
  decide

theorem test_hexval_bounds : [':', '/', '@', 'G', '`', 'g'].map hexval = List.replicate 6 none := by
  decide

theorem test_key_parse :
    keyParse "2AFBAECAD43128E3".toList = .ok 0x2AFBAECAD43128E3#64 ∧
    keyParse "0x2afbaecad43128".toList = .error .malformedKey := by decide

theorem test_cipher_parse :
    cipherParse "abc".toList = .ok [0xAB#8, 0xC0#8] ∧
    cipherParse "5a6g".toList = .error .malformedCiphertext := by decide

/-! Witnesses: states and operands that meet the hypotheses of the obligations. -/

/-- A string of `n` zero bytes, for the boundary lengths. -/
abbrev zeroBytes (n : Nat) : List Byte := List.replicate n 0x00#8

/-- A block with the engine's or the host's turn listed. -/
def turn (a : Agent) (ops : List HostOp) : State := { idle ops with turns := [a] }

theorem witness_inv_pending : (block []).Inv where
  memWF := by decide
  memInBuffers := fun _ h => nomatch h
  olenFits := by decide
  errOfBlock := by decide
  pendOnlyReady := by decide
  constructingClean := by decide

theorem witness_DecodeAndEncodeAgree : decode 0x6C654803#32 = .ok (.getcode 0x48#8 0x65#8 0x6C#8) := by
  decide

theorem witness_EveryWordMatchesAtMostOneRow :
    (OpcodeRow.iForm 0x01#8 ∈ opcodeRows ∧ (OpcodeRow.iForm 0x01#8).matches 0xFFFFFF01#32 = true) ∧
    (OpcodeRow.zForm 0x0C#8 ∈ opcodeRows ∧ (OpcodeRow.zForm 0x0C#8).matches 0x0000000C#32 = true) ∧
    (0x04#8).toNat ∈ [1, 2, 3, 4] ∧ (0x0C#8).toNat ∈ [0, 5, 6, 7, 8, 9, 10, 11, 12] := by decide

theorem witness_IllegalWordsRaiseIllegalCommand :
    0x0D ≤ (opField 0x0000000D#32).toNat ∧
    ((opField 0x00000100#32).toNat ∉ [1, 2, 3, 4] ∧ immField 0x00000100#32 ≠ 0#24) ∧
    (idle []).busy = false ∧
    ({ block [] with cmd := 0xFFFFFF0C#32 }.phase = .ready ∧
      { block [] with cmd := 0xFFFFFF0C#32 }.pend = true) := by decide

theorem witness_AssemblerAcceptsExactlyWellFormedLines :
    0xFFFFFF < 2 ^ 24 ∧ 0xFF < 2 ^ 8 ∧ AsmLine.wf ⟨"GETCODE".toList, [0xFF, 0, 0xFF]⟩ = true ∧
    AsmLine.wf ⟨"GETORIG".toList, [0xFFFFFF]⟩ = true ∧ AsmLine.wf ⟨"NOP".toList, []⟩ = true := by decide

theorem witness_StepRunsTheDecodedCommand :
    nextAgent (block []) = .engine ∧ (block []).phase = .ready ∧ (block []).pend = true ∧
    decode (block []).cmd = .ok .nop ∧ decode (tableWord 32 0x6C654803) =
      .ok (.getcode 0x48#8 0x65#8 0x6C#8) := by decide

theorem witness_BuildStepGivesTheCleanEntryState :
    State.reset.Inv ∧ State.reset.phase = .constructing ∧ nextAgent State.reset = .engine ∧
      State.reset.tables = .keyed :=
  ⟨⟨by decide, (fun _ h => nomatch h), by decide, by decide, by decide, by decide⟩, rfl, rfl, rfl⟩

theorem witness_ResetEventGivesTheResetState :
    nextAgent { block [] with turns := [.host], hostOps := [.reset] } = .host ∧
    { block [] with turns := [.host], hostOps := [.reset] }.hostOps = .reset :: [] := by decide

theorem witness_KeyChangesOnlyAtReset :
    (∃ t, step (turn .host [.reset]) = .next t ∧ nextAgent (turn .host [.reset]) = .host ∧
      (turn .host [.reset]).hostOps.head? = some .reset) ∧
    (∃ t, step (turn .host [.driveKey 1#64]) = .next t ∧
      ¬(nextAgent (turn .host [.driveKey 1#64]) = .host ∧
        (turn .host [.driveKey 1#64]).hostOps.head? = some .reset)) :=
  ⟨⟨_, rfl, by decide⟩, ⟨_, rfl, by decide⟩⟩

theorem witness_ConfigReportsTheFixedPolicy : ∃ t, step (turn .host [.reset]) = .next t := ⟨_, rfl⟩

theorem witness_PhaseAndPendChangeOnlyAsStated :
    (∃ t, step State.reset = .next t ∧ t.phase ≠ State.reset.phase) ∧
    (∃ t, step (idle [.wr (portAddr 0x004) 0#32]) = .next t ∧
      (idle [.wr (portAddr 0x004) 0#32]).pend = false ∧ t.pend = true) ∧
    (∃ t, step (block []) = .next t ∧ (block []).pend = true ∧ t.pend = false) ∧
    (State.reset.busy = true ∧ portReg (portAddr 0x004) = .cmd ∧ portReg (portAddr 0x00C) = .ilen ∧
      portReg (portAddr 0x100) = .ibuf 0 ∧ portReg (portAddr 0x204) = .ibuf 65) ∧
    (idle []).busy = false :=
  ⟨⟨_, rfl, by decide⟩, ⟨_, rfl, by decide⟩, ⟨_, rfl, by decide⟩, by decide, by decide⟩

theorem witness_OvrIsStickyAsStated :
    (∃ t, step { State.reset with turns := [.host], hostOps := [.wr (portAddr 0x00C) 5#32] } = .next t ∧
      t.ovr = true) ∧
    (∃ t, step { idle [.wr (portAddr 0x008) 4#32] with ovr := true } = .next t ∧ t.ovr = false) :=
  ⟨⟨_, rfl, by decide⟩, ⟨_, rfl, by decide⟩⟩

theorem witness_EveryStepKeepsTheInvariant : (block []).Inv ∧ ∃ t, step (block []) = .next t :=
  ⟨witness_inv_pending, _, rfl⟩

theorem witness_PendingCommandCompletesUnlessReset :
    (block []).phase = .ready ∧ (block []).pend = true ∧ HostOp.reset ∉ (block []).hostOps := by decide

theorem witness_PollEnds :
    { block [] with hostOps := [.poll] }.Inv ∧ { block [] with hostOps := [.poll] }.hostOps =
      .poll :: [] :=
  ⟨⟨by decide, (fun _ h => nomatch h), by decide, by decide, by decide, by decide⟩, rfl⟩

theorem witness_HostReadsReturnTheRegisters :
    nextAgent (idle [.rd (portAddr 0x404)]) = .host ∧
    (idle [.rd (portAddr 0x404)]).hostOps = .rd (portAddr 0x404) :: [] ∧
    portReg (portAddr 0x01C) = .reserved ∧ portReg (portAddr 0x0FC) = .reserved ∧
    portReg (portAddr 0x208) = .reserved ∧ portReg (portAddr 0x2FC) = .reserved ∧
    portReg (portAddr 0x408) = .reserved ∧ portReg (portAddr 0xFFC) = .reserved := by decide

/-- The premises of its other clauses: every form of read, idle and BUSY, and OLEN at its bound. -/
theorem witness_HostReadsReturnTheRegisters_other_reads :
    nextAgent (turn .host [.rdEq (portAddr 0x010) 5#32]) = .host ∧
    nextAgent { block [] with turns := [.host], hostOps := [.poll] } = .host ∧
    nextAgent (turn .host [.readout]) = .host ∧
    { block [] with olen := 264#9 }.olen.toNat ≤ 264 := by decide

/-- The premises of its step clauses: a write idle and while BUSY, and a key presented. -/
theorem witness_HostWritesActByOffset_steps :
    (nextAgent (idle [.wr (portAddr 0x004) 0#32]) = .host ∧
      (idle [.wr (portAddr 0x004) 0#32]).hostOps = .wr (portAddr 0x004) 0#32 :: []) ∧
    nextAgent { block [] with turns := [.host], hostOps := [.wr (portAddr 0x204) 0#32] } = .host ∧
    nextAgent (idle [.driveKey 1#64]) = .host := by decide

theorem witness_HostWritesActByOffset :
    Memory.wf (idle []).mem ∧ (idle []).busy = false ∧ (block []).busy = true ∧
    portReg (portAddr (0x100 + 4 * 65)) = .ibuf 65 ∧ portReg (portAddr 0x300) = .obuf 0 ∧
    portReg (portAddr 0x404) = .obuf 65 := by decide

theorem witness_ReservedAndReadOnlyOffsets :
    portReg (portAddr 0x010) = .olen ∧ portReg (portAddr 0x014) = .result ∧
    portReg (portAddr 0x018) = .config ∧ portReg (portAddr 0xFFC) = .reserved := by decide

theorem witness_BufferWordsAreLittleEndian :
    Memory.wf (idle []).mem ∧ (idle []).busy = false ∧ (65 ≤ 65 ∧ (0 : Nat) ≠ 65 ∧ 3 < 4) := by decide

theorem witness_InputIsFixedWhilePending :
    (idle []).busy = false ∧
    ∃ t, step { block [] with turns := [.host], hostOps := [.wr (portAddr 0x00C) 5#32] } = .next t ∧
      { block [] with turns := [.host], hostOps := [.wr (portAddr 0x00C) 5#32] }.pend = true ∧
      nextAgent { block [] with turns := [.host], hostOps := [.wr (portAddr 0x00C) 5#32] } = .host ∧
      { block [] with turns := [.host], hostOps := [.wr (portAddr 0x00C) 5#32] }.hostOps.head? ≠
        some .reset ∧
      (∃ s', exec .encrypt { block [] with turns := [.host], hostOps := [.wr (portAddr 0x00C) 5#32] } =
        .next s') ∧
      ∃ t', exec .encrypt t = .next t' :=
  ⟨by decide, _, rfl, by decide, by decide, by decide, ⟨_, rfl⟩, ⟨_, rfl⟩⟩

theorem witness_LoadLeavesTheBytesAsInput :
    Memory.wf (idle (loadOps (zeroBytes 264))).mem ∧ (idle (loadOps (zeroBytes 264))).busy = false ∧
    (idle (loadOps (zeroBytes 264))).turns = [] ∧
    (idle (loadOps (zeroBytes 264))).hostOps = loadOps (zeroBytes 264) ++ [] ∧
    (zeroBytes 264).length ≤ 264 ∧ ([] : List Byte).length ≤ 264 :=
  ⟨by decide, rfl, rfl, (List.append_nil _).symm, by simp, by simp⟩

theorem witness_NopSetsOnlyErr :
    opField 0x00000100#32 = 0x00#8 ∧ immField 0x00000100#32 ≠ 0#24 ∧
    { block [] with cmd := 0x00000100#32 }.phase = .ready ∧
    { block [] with cmd := 0x00000100#32 }.pend = true := by decide

theorem witness_NoHostAccessReachesTheKey :
    ∃ t, step (turn .host [.driveKey 1#64]) = .next t ∧
      ¬(nextAgent (turn .host [.driveKey 1#64]) = .host ∧
        (turn .host [.driveKey 1#64]).hostOps.head? = some .reset) := ⟨_, rfl, by decide⟩

theorem witness_RdfwdReadsTheForwardTable :
    (block []).tables = .testPerm ∧ opField 0xFFFFFF01#32 = 0x01#8 := by decide

theorem witness_RdinvReadsTheInverseTable :
    (block []).tables = .testPerm ∧ opField 0x12345702#32 = 0x02#8 ∧
      ∃ t, exec (.rdfwd 0xFFFFFF#24) (block []) = .next t :=
  ⟨rfl, by decide, _, rfl⟩

theorem witness_GetcodeEncodesOneBlock :
    Memory.wf (block hello).mem ∧ opField 0x6C654803#32 = 0x03#8 := by decide

theorem witness_GetorigDecodesOneBlock :
    Memory.wf (block helloHash).mem ∧ opField 0xBF2E3004#32 = 0x04#8 := by decide

/-- The lengths at which the clauses of the string commands meet. -/
theorem witness_string_command_lengths :
    Memory.wf (blockLen 264).mem ∧ (blockLen 264).ilen.toNat = 264 ∧ 264 % 3 = 0 ∧
    Memory.wf (blockLen 265).mem ∧ (blockLen 265).ilen.toNat = 265 ∧
    (blockLen 4).ilen.toNat = 4 ∧ (blockLen 255).ilen.toNat = 255 ∧
    (blockLen 256).ilen.toNat = 256 ∧ (blockLen 511).ilen.toNat = 511 := by decide

theorem witness_EncblkEncodesTheInput :
    (blockLen 264).ilen.toNat ≤ 264 ∧ (blockLen 264).ilen.toNat % 3 = 0 ∧
    264 < (blockLen 265).ilen.toNat ∧ (blockLen 4).ilen.toNat % 3 ≠ 0 := by decide

theorem witness_DecblkDecodesTheInput :
    (blockLen 264).ilen.toNat ≤ 264 ∧ 264 < (blockLen 265).ilen.toNat := by decide

theorem witness_XorksAppliesTheKeystream :
    (blockLen 264).ilen.toNat ≤ 264 ∧ 264 < (blockLen 265).ilen.toNat := by decide

theorem witness_CsumReturnsTheChecksum :
    (blockLen 264).ilen.toNat ≤ 264 ∧ 264 < (blockLen 265).ilen.toNat := by decide

theorem witness_FrameFramesTheMessage :
    (blockLen 255).ilen.toNat ≤ 255 ∧ 255 < (blockLen 256).ilen.toNat := by decide

theorem witness_UnframeExtractsOrFails :
    Memory.wf (block helloFrame).mem ∧ unframe (block helloFrame).input = .ok hello ∧
    unframe (block []).input = .error .invalidLength ∧ 264 < (blockLen 265).ilen.toNat := by decide

theorem witness_EncryptEncryptsTheMessage :
    (blockLen 255).ilen.toNat ≤ 255 ∧ 255 < (blockLen 256).ilen.toNat := by decide

theorem witness_DecryptDecryptsOrFails :
    Memory.wf (block helloCipher).mem ∧
    decryptBytes (block []).policy (block []).perm (block []).key (block helloCipher).input =
      .ok hello ∧
    decryptBytes (block []).policy (block []).perm (block []).key [] = .error .invalidLength ∧
    (block []).ilen = 0#9 ∧ 264 < (blockLen 265).ilen.toNat := by decide

theorem witness_CommandsLeaveTheRestUnchanged :
    (∃ t, exec .frame (block hello) = .next t ∧ t.err = .ok ∧ writesObuf .frame = true ∧
      writesResult .frame = false) ∧
    (∃ t, exec .csum (block hello) = .next t ∧ t.err = .ok ∧ writesObuf .csum = false) ∧
    Memory.wf (block hello).mem :=
  ⟨⟨_, rfl, by decide⟩, ⟨_, rfl, by decide⟩, by decide⟩

theorem witness_FailedCommandChangesNothingElse :
    (∃ t, exec .unframe (block []) = .next t ∧ t.err ≠ .ok) ∧
    ∃ t, commandStep { block [] with cmd := 0x0000000D#32 } = .next t ∧ t.err ≠ .ok :=
  ⟨⟨_, rfl, by decide⟩, _, rfl, by decide⟩

theorem witness_BadArgumentExactlyOnBadLengths :
    ∃ t, exec .encrypt (blockLen 256) = .next t ∧ t.err = .badArgument := ⟨_, rfl, by decide⟩

theorem witness_EachCodeIsRaisedOnlyWhereListed :
    ∃ t, exec .unframe (block []) = .next t ∧ t.err = .invalidLength := ⟨_, rfl, by decide⟩

theorem witness_FailedCommandFailsAgain :
    ∃ t, exec .decrypt (block []) = .next t ∧ t.err ≠ .ok := ⟨_, rfl, by decide⟩

theorem witness_BlockStringsGroupByGroup :
    helloFrame.length % 3 = 0 ∧ 2 < helloFrame.length / 3 ∧
    (helloHash ++ [0x01#8]).take (3 * (helloHash.length / 3)) =
      helloHash.take (3 * (helloHash.length / 3)) ∧
    (helloHash ++ [0x01#8]).length / 3 = helloHash.length / 3 := by decide

theorem witness_XorStreamByteByByte : 7 < 8 ∧ 15 < ceil8 helloHash.length := by decide

theorem witness_XorStreamTwiceRestoresThePaddedInput : helloCipher.length % 8 = 0 := by decide

theorem witness_ChecksumFoldAndRanges :
    (∀ b ∈ hello, b.toNat < 0x80) ∧ hello ≠ [] ∧ csum [0xFF#8] = 0x00#8 ∧
    0x80 ≤ (csum [0xC3#8]).toNat := by decide

theorem witness_FrameLayoutAndLength :
    (zeroBytes 255).length ≤ 255 ∧ (zeroBytes 1).length % 3 = 1 := ⟨by simp, by simp⟩

theorem witness_UnframeChecksInOrder :
    ([0x09#8, 0x01#8, 0x02#8] : List Byte).length < (0x09#8).toNat ∧
    ((0x03#8).toNat ≤ ([0x03#8, 0x41#8, 0x42#8] : List Byte).length ∧
      ([0x03#8, 0x41#8, 0x42#8] : List Byte).length < (0x03#8).toNat + 2) ∧
    ((0x00#8).toNat + 2 ≤ ([0x00#8, 0x00#8, 0x02#8] : List Byte).length ∧
      ([0x00#8, 0x00#8, 0x02#8] : List Byte).getD 2 0#8 ≠ 0x01#8) ∧
    csum (([0x00#8, 0x01#8, 0x01#8] : List Byte).drop 1 |>.take 0) ≠ 0x01#8 ∧
    csum (([0x00#8, 0x00#8, 0x01#8] : List Byte).drop 1 |>.take 0) = 0x00#8 := by decide

theorem witness_UnframeOfFrames :
    hello.length ≤ 255 ∧ 255 < (zeroBytes 256).length ∧ hello.length + 2 ≤ 8 ∧
    8 < (frame hello).length ∧ 0x03#8 ≠ (frame hello).getD 8 0#8 ∧ 0x7D#8 ≠ csum hello :=
  ⟨by decide, by simp, by decide, by decide, by decide, by decide⟩

theorem witness_FrameBoundedRoundTrip : (zeroBytes 255).length ≤ 255 := by simp

theorem witness_EncryptThenDecryptReturnsTheMessage :
    Memory.wf (block hello).mem ∧ Memory.wf (block helloCipher).mem ∧
    (block hello).ilen.toNat ≤ 255 ∧ (block helloCipher).policy = .frameBounded ∧
    (block helloCipher).key = (block hello).key ∧ (block helloCipher).tables = (block hello).tables ∧
    ∃ t, exec .encrypt (block hello) = .next t ∧ (block helloCipher).input = t.output :=
  ⟨by decide, by decide, by decide, rfl, rfl, rfl, _, rfl, by decide⟩

theorem witness_LiteralRoundTrip :
    frameBlocks (zeroBytes 1).length % 8 ∈ [0, 2, 5] ∧
    frameBlocks hello.length % 8 ∉ [0, 2, 5] := by decide

theorem witness_DecryptIgnoresBytesBeyondTheFrame :
    (helloCipher.take 15 ++ [0x00#8]).length = helloCipher.length ∧
    lengthByte testPerm (xorStream 0x2AFBAECAD43128E3#64 helloCipher) = some 0x05#8 ∧
    (helloCipher.take 15 ++ [0x00#8]).take (3 * frameBlocks (0x05#8).toNat) =
      helloCipher.take (3 * frameBlocks (0x05#8).toNat) ∧
    (helloCipher.take 9 ++ [0x00#8]).take (frameLength hello.length) =
      (encryptBytes testPerm 0x2AFBAECAD43128E3#64 hello).take (frameLength hello.length) := by decide

theorem witness_KeyParseReadsSixteenDigits :
    keyParse "2afbaecad43128e3".toList = .ok 0x2AFBAECAD43128E3#64 ∧
    (∀ k, keyParse "2afbaecad43128e".toList ≠ .ok k) :=
  ⟨by decide, fun k h => by
    have hb : keyParse "2afbaecad43128e".toList = .error .malformedKey := by decide
    rw [hb] at h
    cases h⟩

theorem witness_CipherParseReadsTheHexForm :
    (zeroBytes 264).length ≤ 264 ∧ 264 < (zeroBytes 265).length ∧ "abc".toList.length % 2 = 1 ∧
    ('g' ∈ "5a6g".toList ∧ hexval 'g' = none) ∧
    (∀ c ∈ List.replicate 528 'F', (hexval c).isSome = true) ∧
    (∀ c ∈ List.replicate 530 'F', (hexval c).isSome = true) ∧
    "5A6f".toList.map Char.toLower = "5a6F".toList.map Char.toLower :=
  ⟨by simp, by simp, by decide, by decide,
    fun _ h => by rw [List.eq_of_mem_replicate h]; decide,
    fun _ h => by rw [List.eq_of_mem_replicate h]; decide, by decide⟩

theorem witness_StreamXorStringFormAgrees : hexvals "5A6".toList = some [5, 10, 6] := by decide

theorem witness_BootOrderMakesTheBlockReady :
    ∃ ops, keyParse "2afbaecad43128e3".toList = .ok 0x2AFBAECAD43128E3#64 ∧
      bootOps true "2afbaecad43128e3".toList = .ok ops ∧ (idle ops).busy = false ∧
      (idle ops).turns = [] ∧ (idle ops).hostOps = ops ++ [] :=
  ⟨_, by decide, rfl, rfl, rfl, rfl⟩

theorem witness_SourceStringFormsAgree :
    Memory.wf (block hello).mem ∧ (block hello).ilen.toNat ≤ 255 ∧
    (∃ t, exec .encrypt (block hello) = .next t) ∧ Memory.wf (block helloCipher).mem ∧
    cipherParse "5A67a2b9860eeba336fbaecad43128e3".toList = .ok (block helloCipher).input ∧
    (∃ t, exec .decrypt (block helloCipher) = .next t) ∧
    srcDecrypt .frameBounded testPerm 0x2AFBAECAD43128E3#64
      "5A67a2b9860eeba336fbaecad43128e3".toList = .ok hello ∧
    srcDecrypt .literal testPerm 0x2AFBAECAD43128E3#64
      "5A67a2b9860eeba336fbaecad43128e3".toList = .error .invalidPadding :=
  ⟨by decide, by decide, ⟨_, rfl⟩, by decide, by decide, ⟨_, rfl⟩, by decide, by decide⟩

end Sys2Proof.Tests
end

section
/-! SUPPORT. The frame of a command: what its two commits leave unchanged (spec 60_exceptions.md R204,
R205), and from that the statement about every command. -/

namespace Sys2Proof.Proofs

open Sys2Proof.Machine

/-- The success commit touches no field but the five that R205 names. -/
theorem commitOk_eq_update (out : Option (List Byte)) (res : Option Word24) (s : State) :
    commitOk out res s = { s with
      mem := (commitOk out res s).mem, olen := (commitOk out res s).olen,
      result := (commitOk out res s).result, err := .ok, pend := false } := by
  cases out <;> cases res <;> rfl

/-- The success commit leaves every byte outside OBUF, whether or not it writes a string. -/
theorem commitOk_read_outside_obuf {out : Option (List Byte)} (res : Option Word24) {s : State}
    {a : Nat} (hm : Memory.wf s.mem) (hl : ∀ bs, out = some bs → bs.length ≤ bufSize)
    (ha : ¬(obufBase ≤ a ∧ a < obufBase + bufSize)) :
    (commitOk out res s).mem.read a = s.mem.read a := by
  cases out with
  | none => simp
  | some bs =>
    have hlen : bs.length ≤ bufSize := hl bs rfl
    exact (commitOk_commitsString bs res s hm hlen).others a (by omega)

/-- A committed string leaves every byte outside `OBUF[0..OLEN)`, OLEN being the one it sets. -/
theorem commitOk_read_outside_output {bs : List Byte} (res : Option Word24) {s : State} {a : Nat}
    (hm : Memory.wf s.mem) (hl : bs.length ≤ bufSize)
    (ha : ¬(obufBase ≤ a ∧ a < obufBase + (commitOk (some bs) res s).olen.toNat)) :
    (commitOk (some bs) res s).mem.read a = s.mem.read a := by
  have hc := commitOk_commitsString bs res s hm hl
  exact hc.others a (hc.olen ▸ ha)

/-- Settles O39: a command ends in one of the two commits (`exec_cases`), and each leaves the rest. -/
theorem commandsLeaveTheRestUnchanged : Obligations.CommandsLeaveTheRestUnchanged := by
  intro i s t hm h
  obtain ⟨e, -, hne, rfl⟩ | ⟨out, res, rfl, hout, hres, hlen⟩ := exec_cases h
  · exact ⟨rfl, fun _ _ => rfl, fun hok => absurd hok hne⟩
  · refine ⟨by simpa using commitOk_eq_update out res s,
      fun _ ha => commitOk_read_outside_obuf res hm hlen ha,
      fun _ => ⟨fun hw => ?_, fun hw _ ha => ?_, fun hw => ?_⟩⟩
    · obtain rfl : out = none := by simpa [hw] using hout
      simp
    · obtain ⟨bs, rfl⟩ := Option.isSome_iff_exists.mp (hout.trans hw)
      exact commitOk_read_outside_output res hm (hlen bs rfl) ha
    · obtain rfl : res = none := by simpa [hw] using hres
      simp

end Sys2Proof.Proofs
end

section
/-! SUPPORT. What a step keeps of the state (spec 10_state.md): the invariant of a good state, effect by
effect, and the fields that a commit, a host write and a host move leave as they are. -/

namespace Sys2Proof.Machine

variable {s t : State} {a : PortAddr} {v : Word} {i : Instr}

/-! The invariant (R25, R28, R29, R34, R200, R234). -/

/-- The invariant does not speak of OVR, the parameters (R27, R8), the keys, or the world outside the
block. -/
theorem State.Inv.of_other_fields {ovr : Bool} {policy : DecodePolicy} {key keyIn : Key}
    {tables : TableParam} {hostOps : List HostOp} {reads : List PortRead} {turns : List Agent}
    (h : s.Inv) : State.Inv { s with
      ovr := ovr, policy := policy, key := key, keyIn := keyIn, tables := tables,
      hostOps := hostOps, reads := reads, turns := turns } :=
  { h with }

/-- In READY the invariant is its clauses on memory, OLEN and ERR. -/
theorem State.Inv.of_ready (hp : t.phase = .ready) (hm : Memory.wf t.mem)
    (hb : ∀ c ∈ t.mem, inBuffers c.1) (ho : t.olen.toNat ≤ bufSize) (he : t.err.ofBlock = true) :
    t.Inv where
  memWF := hm
  memInBuffers := hb
  olenFits := ho
  errOfBlock := he
  pendOnlyReady _ := hp
  constructingClean hc := by simp [hp] at hc

theorem State.reset_inv : State.reset.Inv where
  memWF := ⟨.nil, by simp [State.reset]⟩
  memInBuffers := by simp [State.reset]
  olenFits := Nat.zero_le _
  errOfBlock := rfl
  pendOnlyReady h := nomatch h
  constructingClean _ := ⟨rfl, rfl, rfl, rfl, rfl, rfl⟩

theorem resetEvent_inv (s : State) : (resetEvent s).Inv :=
  State.reset_inv.of_other_fields

/-- A store into a buffer keeps the listed bytes within the buffers. -/
theorem Memory.inBuffers_of_mem_store {m : Memory} {addr : Nat} {bs : List Byte}
    (hm : ∀ c ∈ m, inBuffers c.1) (hbs : ∀ x, addr ≤ x → x < addr + bs.length → inBuffers x) :
    ∀ c ∈ m.store addr bs, inBuffers c.1 := by
  intro c hc
  obtain hc | ⟨hle, hlt⟩ := Memory.mem_store hc
  · exact hm c hc
  · exact hbs c.1 hle hlt

/-- The four bytes of IBUF word `w` lie in IBUF (R51). -/
theorem inBuffers_of_ibufWord {w x : Nat} (hw : w ≤ 65) (hle : ibufBase + 4 * w ≤ x)
    (hlt : x < ibufBase + 4 * w + 4) : inBuffers x :=
  Or.inl (by simp only [ibufBase, bufSize] at *; omega)

theorem inBuffers_of_output {n x : Nat} (hn : n ≤ bufSize) (hle : obufBase ≤ x)
    (hlt : x < obufBase + n) : inBuffers x :=
  Or.inr ⟨hle, by omega⟩

theorem BlockError.inv (h : BlockError s t) (hs : s.Inv) (hp : s.phase = .ready) : t.Inv := by
  obtain ⟨e, he, -, rfl⟩ := h
  exact .of_ready hp hs.memWF hs.memInBuffers (Nat.zero_le _) he

theorem BlockSuccess.inv (h : BlockSuccess i s t) (hs : s.Inv) (hp : s.phase = .ready) : t.Inv := by
  have hwf : Memory.wf t.mem := h.mem_wf hs.memWF
  obtain ⟨out, res, rfl, -, -, hlen⟩ := h
  refine .of_ready (by simpa using hp) hwf ?_ ?_ (by simp [ErrCode.ofBlock])
  · cases out with
    | none => simpa using hs.memInBuffers
    | some bs =>
      simpa using Memory.inBuffers_of_mem_store hs.memInBuffers
        fun _ => inBuffers_of_output (hlen bs rfl)
  · cases out with
    | none => simpa using hs.olenFits
    | some bs => exact (commitOk_commitsString bs res s hs.memWF (hlen bs rfl)).olen ▸ hlen bs rfl

/-- A host write keeps the invariant: what it may change while BUSY is OVR alone, and an idle block is
READY. -/
theorem WriteEffect.inv (h : WriteEffect s a v t) (hs : s.Inv) : t.Inv := by
  have hwf : Memory.wf t.mem := h.mem_wf hs.memWF
  have ready (hb : s.busy = false) : s.phase = .ready := (s.busy_eq_false_iff.mp hb).1
  cases h with
  | none h => exact h ▸ hs
  | blocked hb hr h => subst h; exact hs.of_other_fields
  | clear hr hv h => subst h; exact hs.of_other_fields
  | accept hb hr h =>
    subst h
    exact .of_ready (ready hb) hwf hs.memInBuffers hs.olenFits hs.errOfBlock
  | length hb hr h =>
    subst h
    exact .of_ready (ready hb) hwf hs.memInBuffers hs.olenFits hs.errOfBlock
  | word w hw hb hr h =>
    subst h
    exact .of_ready (ready hb) hwf
      (Memory.inBuffers_of_mem_store hs.memInBuffers fun _ => inBuffers_of_ibufWord hw)
      hs.olenFits hs.errOfBlock

theorem MoveEffect.inv (h : MoveEffect s t) (hs : s.Inv) : t.Inv := by
  cases h with
  | idle h ht => exact ht ▸ hs
  | write a v rest h ht => exact ht.inv (hs.of_other_fields)
  | read a x ops h ht => subst ht; exact hs.of_other_fields
  | drive k rest h ht => subst ht; exact hs.of_other_fields
  | reset rest h ht => exact ht ▸ resetEvent_inv _

theorem StepEffect.inv (h : StepEffect s t) (hs : s.Inv) : t.Inv := by
  have hs' : s.popTurn.Inv := hs.of_other_fields
  cases h with
  | build ha hp ht =>
    subst ht
    exact .of_ready rfl hs.memWF hs.memInBuffers hs.olenFits hs.errOfBlock
  | error ha hp hd ht => exact ht.inv hs' hp
  | success i ha hp hd hi ht => exact ht.inv hs' hp
  | rest ha hp hd ht => exact ht ▸ hs'
  | host ha ht => exact ht.inv hs'

/-! The fields that an effect leaves. -/

/-- `t` has the parameters and KEY of `s` (R27, R30 to R33). -/
structure SameInstance (s t : State) : Prop where
  policy : t.policy = s.policy
  tables : t.tables = s.tables
  key : t.key = s.key

/-- A command step's commit leaves the parameters, KEY, PHASE and OVR, and clears PEND (R204, R205). -/
structure CommitFrame (s t : State) : Prop extends SameInstance s t where
  phase : t.phase = s.phase
  ovr : t.ovr = s.ovr
  pend : t.pend = false

theorem BlockError.frame (h : BlockError s t) : CommitFrame s t := by
  obtain ⟨e, -, -, rfl⟩ := h
  exact ⟨⟨rfl, rfl, rfl⟩, rfl, rfl, rfl⟩

theorem BlockSuccess.frame (h : BlockSuccess i s t) : CommitFrame s t := by
  obtain ⟨out, res, rfl, -⟩ := h
  exact ⟨⟨by simp, by simp, by simp⟩, by simp, by simp, by simp⟩

theorem WriteEffect.frame (h : WriteEffect s a v t) : SameInstance s t ∧ t.phase = s.phase := by
  cases h with
  | none h => exact h ▸ ⟨⟨rfl, rfl, rfl⟩, rfl⟩
  | blocked hb hr h => exact h ▸ ⟨⟨rfl, rfl, rfl⟩, rfl⟩
  | accept hb hr h => exact h ▸ ⟨⟨rfl, rfl, rfl⟩, rfl⟩
  | length hb hr h => exact h ▸ ⟨⟨rfl, rfl, rfl⟩, rfl⟩
  | word w hw hb hr h => exact h ▸ ⟨⟨rfl, rfl, rfl⟩, rfl⟩
  | clear hr hv h => exact h ▸ ⟨⟨rfl, rfl, rfl⟩, rfl⟩

/-- A host write leaves PEND, unless it is the accepted CMD write (R34). -/
theorem WriteEffect.pend_cases (h : WriteEffect s a v t) :
    t.pend = s.pend ∨ (s.busy = false ∧ portReg a = .cmd ∧ t.cmd = v ∧ t.pend = true) := by
  cases h with
  | accept hb hr h => exact .inr ⟨hb, hr, h ▸ rfl, h ▸ rfl⟩
  | none h => exact .inl (h ▸ rfl)
  | blocked hb hr h => exact .inl (h ▸ rfl)
  | length hb hr h => exact .inl (h ▸ rfl)
  | word w hw hb hr h => exact .inl (h ▸ rfl)
  | clear hr hv h => exact .inl (h ▸ rfl)

/-- A host write leaves OVR, unless it is a blocked one, which sets it, or a STATUS write with bit 2 = 1,
which clears it (R23, R236). -/
theorem WriteEffect.ovr_cases (h : WriteEffect s a v t) :
    t.ovr = s.ovr ∨
    (t.ovr = true ∧ s.busy = true ∧
      (portReg a = .cmd ∨ portReg a = .ilen ∨ ∃ w, portReg a = .ibuf w)) ∨
    (t.ovr = false ∧ portReg a = .status ∧ v.getLsbD 2 = true) := by
  cases h with
  | blocked hb hr h => exact .inr (.inl ⟨h ▸ rfl, hb, hr⟩)
  | clear hr hv h => exact .inr (.inr ⟨h ▸ rfl, hr, hv⟩)
  | none h => exact .inl (h ▸ rfl)
  | accept hb hr h => exact .inl (h ▸ rfl)
  | length hb hr h => exact .inl (h ▸ rfl)
  | word w hw hb hr h => exact .inl (h ▸ rfl)

/-- STATUS stands at one address (R51). -/
theorem eq_portAddr_of_portReg_status (h : portReg a = .status) : a = portAddr 0x008 := by
  have hoff : portOffset a = 0x008 := by
    simp only [portReg] at h
    split_ifs at h
    assumption
  apply BitVec.eq_of_toNat_eq
  simp only [portOffset, portAddr, BitVec.toNat_ofNat] at *
  omega

/-- What a step does to PHASE, PEND, OVR, KEY and the parameters, by the agent that moves. -/
inductive BlockEffect (s t : State) : Prop
  /-- The engine's build step (R232). -/
  | build (ha : nextAgent s = .engine) (hp : s.phase = .constructing) (hi : SameInstance s t)
      (hphase : t.phase = .ready) (hpend : t.pend = s.pend) (hovr : t.ovr = s.ovr)
  /-- The engine's turn in READY: a command step, or nothing while no command is pending (R65). -/
  | command (ha : nextAgent s = .engine) (hp : s.phase = .ready) (hf : CommitFrame s t)
  /-- The reset event (R230). -/
  | reset (ha : nextAgent s = .host) (hr : s.hostOps.head? = some .reset)
      (hpolicy : t.policy = s.policy) (htables : t.tables = s.tables)
      (hphase : t.phase = .constructing) (hpend : t.pend = false) (hovr : t.ovr = false)
  /-- A host write (R57). -/
  | write (a : PortAddr) (v : Word) (rest : List HostOp) (ha : nextAgent s = .host)
      (h : s.hostOps = .wr a v :: rest)
      (ht : WriteEffect { s.popTurn with hostOps := rest } a v t)
  /-- A host read, a move of the key pins, or no operation. -/
  | other (ha : nextAgent s = .host) (hi : SameInstance s t)
      (hphase : t.phase = s.phase) (hpend : t.pend = s.pend) (hovr : t.ovr = s.ovr)

theorem CommitFrame.of_popTurn (h : CommitFrame s.popTurn t) : CommitFrame s t :=
  { h with }

theorem MoveEffect.block (h : MoveEffect s.popTurn t) (ha : nextAgent s = .host) :
    BlockEffect s t := by
  cases h with
  | reset rest h ht =>
    subst ht
    exact .reset ha (congrArg List.head? h) rfl rfl rfl rfl rfl
  | write a v rest h ht => exact .write a v rest ha h ht
  | idle h ht => exact ht ▸ .other ha ⟨rfl, rfl, rfl⟩ rfl rfl rfl
  | read a x ops h ht => exact ht ▸ .other ha ⟨rfl, rfl, rfl⟩ rfl rfl rfl
  | drive k rest h ht => exact ht ▸ .other ha ⟨rfl, rfl, rfl⟩ rfl rfl rfl

/-- The inversion lemma of the step for the fields that `BlockEffect` speaks of. -/
theorem step_block (h : step s = .next t) : BlockEffect s t := by
  cases step_cases h with
  | build ha hp ht => exact ht ▸ .build ha hp ⟨rfl, rfl, rfl⟩ rfl rfl rfl
  | error ha hp hd ht => exact .command ha hp ht.frame.of_popTurn
  | success i ha hp hd hi ht => exact .command ha hp ht.frame.of_popTurn
  | rest ha hp hd ht => exact .command ha hp (ht ▸ ⟨⟨rfl, rfl, rfl⟩, rfl, rfl, hd⟩)
  | host ha ht => exact ht.block ha

/-! Each field through a step. -/

/-- The parameters are fixed for life (R27, R33). -/
theorem step_policy_tables (h : step s = .next t) : t.policy = s.policy ∧ t.tables = s.tables := by
  cases step_block h with
  | build ha hp hi => exact ⟨hi.policy, hi.tables⟩
  | command ha hp hf => exact ⟨hf.policy, hf.tables⟩
  | reset ha hr hpolicy htables => exact ⟨hpolicy, htables⟩
  | write a v rest ha h ht => exact ⟨ht.frame.1.policy, ht.frame.1.tables⟩
  | other ha hi => exact ⟨hi.policy, hi.tables⟩

/-- Nothing but the reset event changes KEY (R30). -/
theorem step_key (h : step s = .next t)
    (hr : ¬(nextAgent s = .host ∧ s.hostOps.head? = some .reset)) : t.key = s.key := by
  cases step_block h with
  | build ha hp hi => exact hi.key
  | command ha hp hf => exact hf.key
  | reset ha hr' => exact absurd ⟨ha, hr'⟩ hr
  | write a v rest ha h ht => exact ht.frame.1.key
  | other ha hi => exact hi.key

theorem step_phase_changes (h : step s = .next t) (hne : t.phase ≠ s.phase) :
    (nextAgent s = .engine ∧ s.phase = .constructing ∧ t.phase = .ready) ∨
    (nextAgent s = .host ∧ s.hostOps.head? = some .reset ∧ t.phase = .constructing) := by
  cases step_block h with
  | build ha hp hi hphase => exact .inl ⟨ha, hp, hphase⟩
  | command ha hp hf => exact absurd hf.phase hne
  | reset ha hr hpolicy htables hphase => exact .inr ⟨ha, hr, hphase⟩
  | write a v rest ha h ht => exact absurd ht.frame.2 hne
  | other ha hi hphase => exact absurd hphase hne

theorem step_pend_rises (h : step s = .next t) (hs : s.pend = false) (ht : t.pend = true) :
    nextAgent s = .host ∧ s.busy = false ∧
      ∃ a v rest, s.hostOps = .wr a v :: rest ∧ portReg a = .cmd ∧ t.cmd = v := by
  have hne : t.pend ≠ s.pend := by simp [hs, ht]
  cases step_block h with
  | build ha hp hi hphase hpend => exact absurd hpend hne
  | command ha hp hf => simp [hf.pend] at ht
  | reset ha hr hpolicy htables hphase hpend => simp [hpend] at ht
  | write a v rest ha hops hw =>
    obtain hpend | ⟨hbusy, hreg, hcmd, -⟩ := hw.pend_cases
    · exact absurd hpend hne
    · exact ⟨ha, hbusy, a, v, rest, hops, hreg, hcmd⟩
  | other ha hi hphase hpend => exact absurd hpend hne

theorem step_pend_falls (h : step s = .next t) (hs : s.pend = true) (ht : t.pend = false) :
    (nextAgent s = .engine ∧ s.phase = .ready) ∨
    (nextAgent s = .host ∧ s.hostOps.head? = some .reset) := by
  have hne : t.pend ≠ s.pend := by simp [hs, ht]
  cases step_block h with
  | build ha hp hi hphase hpend => exact absurd hpend hne
  | command ha hp => exact .inl ⟨ha, hp⟩
  | reset ha hr => exact .inr ⟨ha, hr⟩
  | write a v rest ha hops hw =>
    obtain hpend | ⟨-, -, -, hpend⟩ := hw.pend_cases
    · exact absurd hpend hne
    · simp [hpend] at ht
  | other ha hi hphase hpend => exact absurd hpend hne

/-- The engine's turn while constructing is the build step, which ends in READY (R65, R232). -/
theorem step_engine_constructing (h : step s = .next t) (ha : nextAgent s = .engine)
    (hp : s.phase = .constructing) : t.phase = .ready := by
  cases step_block h with
  | build _ _ hi hphase => exact hphase
  | command _ hp' => simp [hp] at hp'
  | reset ha' => simp [ha] at ha'
  | write a v rest ha' => simp [ha] at ha'
  | other ha' => simp [ha] at ha'

/-- The engine's turn in READY leaves no command pending (R65). -/
theorem step_engine_ready (h : step s = .next t) (ha : nextAgent s = .engine)
    (hp : s.phase = .ready) : t.pend = false := by
  cases step_block h with
  | build _ hp' => simp [hp] at hp'
  | command _ _ hf => exact hf.pend
  | reset ha' => simp [ha] at ha'
  | write a v rest ha' => simp [ha] at ha'
  | other ha' => simp [ha] at ha'

theorem step_ovr_rises (h : step s = .next t) (hs : s.ovr = false) (ht : t.ovr = true) :
    nextAgent s = .host ∧ s.busy = true ∧ ∃ a v rest, s.hostOps = .wr a v :: rest ∧
      (portReg a = .cmd ∨ portReg a = .ilen ∨ ∃ w, portReg a = .ibuf w) := by
  have hne : t.ovr ≠ s.ovr := by simp [hs, ht]
  cases step_block h with
  | build ha hp hi hphase hpend hovr => exact absurd hovr hne
  | command ha hp hf => exact absurd hf.ovr hne
  | reset ha hr hpolicy htables hphase hpend hovr => simp [hovr] at ht
  | write a v rest ha hops hw =>
    obtain hovr | ⟨-, hbusy, hreg⟩ | ⟨hovr, -⟩ := hw.ovr_cases
    · exact absurd hovr hne
    · exact ⟨ha, hbusy, a, v, rest, hops, hreg⟩
    · simp [hovr] at ht
  | other ha hi hphase hpend hovr => exact absurd hovr hne

theorem step_ovr_falls (h : step s = .next t) (hs : s.ovr = true) (ht : t.ovr = false) :
    nextAgent s = .host ∧ (s.hostOps.head? = some .reset ∨
      ∃ v rest, s.hostOps = .wr (portAddr 0x008) v :: rest ∧ v.getLsbD 2 = true) := by
  have hne : t.ovr ≠ s.ovr := by simp [hs, ht]
  cases step_block h with
  | build ha hp hi hphase hpend hovr => exact absurd hovr hne
  | command ha hp hf => exact absurd hf.ovr hne
  | reset ha hr => exact ⟨ha, .inl hr⟩
  | write a v rest ha hops hw =>
    obtain hovr | ⟨hovr, -⟩ | ⟨-, hreg, hv⟩ := hw.ovr_cases
    · exact absurd hovr hne
    · simp [hovr] at ht
    · exact ⟨ha, .inr ⟨v, rest, eq_portAddr_of_portReg_status hreg ▸ hops, hv⟩⟩
  | other ha hi hphase hpend hovr => exact absurd hovr hne

/-! The port (R27, R34, R57). -/

theorem memRead_config (s : State) : memRead s (portAddr 0x018) = s.config := rfl

/-- A write to CMD, ILEN or IBUF while BUSY has no effect on its target and sets OVR (R34). -/
theorem memWrite_of_busy (hb : s.busy = true)
    (hr : portReg a = .cmd ∨ portReg a = .ilen ∨ ∃ w, portReg a = .ibuf w) :
    memWrite s a v = { s with ovr := true } := by
  obtain hr | hr | ⟨w, hr⟩ := hr <;> simp [memWrite, hr, hb]

/-- No register that the port reads depends on KEY or on the tables (R30 to R32). -/
theorem memRead_of_key_tables (s : State) (k : Key) (p : TableParam) (a : PortAddr) :
    memRead { s with key := k, tables := p } a = memRead s a := by
  unfold memRead
  cases portReg a <;> rfl

/-- A byte of the memory after reset (R38). -/
theorem State.reset_mem_read (addr : Nat) : State.reset.mem.read addr = 0x00#8 := rfl

end Sys2Proof.Machine
end

section
/-! SUPPORT. The obligations on the state (spec 10_state.md), from the laws above. -/

namespace Sys2Proof.Proofs

open Sys2Proof.Machine

/-- Settles O15, by the effect of the step: each one keeps the invariant. -/
theorem everyStepKeepsTheInvariant : Obligations.EveryStepKeepsTheInvariant :=
  fun _ _ hs h => (step_cases h).inv hs

/-- Settles O16. -/
theorem resetMeetsTheInvariant : Obligations.ResetMeetsTheInvariant := State.reset_inv

/-- Settles O12: a read of CONFIG is `State.config`, and no effect of a step changes the policy. -/
theorem configReportsTheFixedPolicy : Obligations.ConfigReportsTheFixedPolicy :=
  ⟨memRead_config, fun _ _ => rfl, fun _ _ h => (step_policy_tables h).1⟩

/-- Settles O13, clause by clause from the effect of a step on PHASE and PEND. -/
theorem phaseAndPendChangeOnlyAsStated : Obligations.PhaseAndPendChangeOnlyAsStated := by
  refine ⟨fun s t h => ⟨step_phase_changes h, step_pend_rises h, step_pend_falls h,
    step_engine_constructing h, step_engine_ready h⟩, fun s a v => memWrite_of_busy,
    fun s hb => ?_, rfl⟩
  have hp : s.phase = .ready := (s.busy_eq_false_iff.mp hb).1
  simp [State.ready, hp]

/-- Settles O14, from the effect of a step on OVR. -/
theorem ovrIsStickyAsStated : Obligations.OvrIsStickyAsStated :=
  fun _ _ h => ⟨step_ovr_rises h, step_ovr_falls h⟩

/-- Settles O24: a step other than reset keeps KEY and the choice of permutation, so it keeps the
permutation that FWD and INV hold. -/
theorem noHostAccessReachesTheKey : Obligations.NoHostAccessReachesTheKey := by
  refine ⟨memRead_of_key_tables, fun s a v => ?_, fun s t h => ?_⟩
  · have hi : SameInstance s (memWrite s a v) := (memWrite_effect s a v).frame.1
    exact ⟨hi.key, hi.tables⟩
  · have htables : t.tables = s.tables := (step_policy_tables h).2
    refine ⟨htables, fun hr i => ?_⟩
    have hperm : t.perm = s.perm := State.perm_congr htables (step_key h hr)
    simp [State.fwd, State.inv, hperm]

/-- Settles O9: the registers are fields of `State.reset`, the buffers are empty, and the keyed
tables are a permutation and its inverse. -/
theorem resetStateHoldsTheSpecsValues : Obligations.ResetStateHoldsTheSpecsValues := by
  refine ⟨rfl, rfl, rfl, rfl, rfl, rfl,
    fun j _ => ⟨State.reset_mem_read _, State.reset_mem_read _⟩,
    rfl, rfl, rfl, rfl, rfl, rfl, rfl, memRead_config _, fun _ i => ?_⟩
  have hperm : State.reset.perm = Config.permOf State.reset.key := rfl
  simp [State.fwd, State.inv, hperm]

end Sys2Proof.Proofs
end

section
/-! SUPPORT. The port and the host's turn (spec 20_memory.md R51 to R65): what an offset reaches, the
words of the buffers, the step of each host operation, and what the host leaves of a pending command. -/

namespace Sys2Proof.Machine

variable {s t u : State} {a : PortAddr} {v : Word} {i : Instr} {rest : List HostOp}

/-! The address map (R51, R53). -/

/-- The port address of a word offset of the window stands at that offset. -/
theorem portOffset_portAddr {off : Nat} (hlt : off < 4096) (h4 : off % 4 = 0) :
    portOffset (portAddr off) = off := by
  simp only [portOffset, portAddr, BitVec.toNat_ofNat]
  omega

theorem portReg_ibufWord {w : Nat} (hw : w ≤ 65) : portReg (portAddr (0x100 + 4 * w)) = .ibuf w := by
  have hoff : portOffset (portAddr (0x100 + 4 * w)) = 0x100 + 4 * w :=
    portOffset_portAddr (by omega) (by omega)
  have hidx : (0x100 + 4 * w - 0x100) / 4 = w := by omega
  simp (disch := omega) only [portReg, hoff, hidx, if_neg, if_pos]

theorem portReg_obufWord {w : Nat} (hw : w ≤ 65) : portReg (portAddr (0x300 + 4 * w)) = .obuf w := by
  have hoff : portOffset (portAddr (0x300 + 4 * w)) = 0x300 + 4 * w :=
    portOffset_portAddr (by omega) (by omega)
  have hidx : (0x300 + 4 * w - 0x300) / 4 = w := by omega
  simp (disch := omega) only [portReg, hoff, hidx, if_neg, if_pos]

/-- The reserved offsets of R51. -/
theorem portReg_reserved {off : Nat} (hlt : off < 4096) (h4 : off % 4 = 0)
    (hres : (0x01C ≤ off ∧ off ≤ 0x0FC) ∨ (0x208 ≤ off ∧ off ≤ 0x2FC) ∨ 0x408 ≤ off) :
    portReg (portAddr off) = .reserved := by
  simp (disch := omega) only [portReg, portOffset_portAddr hlt h4, if_neg]

/-! The words of the buffers (R54). -/

theorem getD_wordBytes (v : Word) {k : Nat} (hk : k < 4) :
    (wordBytes v).getD k 0#8 = v.extractLsb' (8 * k) 8 := by
  match k with
  | 0 | 1 | 2 | 3 => rfl

/-- Unpacking a packed word gives its bytes. -/
@[simp] theorem wordBytes_packWord (b0 b1 b2 b3 : Byte) :
    wordBytes (packWord b0 b1 b2 b3) = [b0, b1, b2, b3] := by
  simp only [wordBytes, packWord, BitVec.extractLsb'_append_eq_ite]
  simp

/-- Packing the bytes of a word gives the word. -/
theorem packWord_bytes (v : Word) :
    packWord (v.extractLsb' 0 8) (v.extractLsb' 8 8) (v.extractLsb' 16 8) (v.extractLsb' 24 8) = v := by
  simp only [packWord]
  rw [BitVec.extractLsb'_append_extractLsb'_eq_extractLsb' (by rfl),
    BitVec.extractLsb'_append_extractLsb'_eq_extractLsb' (by rfl),
    BitVec.extractLsb'_append_extractLsb'_eq_extractLsb' (by rfl), BitVec.extractLsb'_eq_self]

theorem wordBytes_injective : Function.Injective wordBytes := by
  intro v v' h
  simp only [wordBytes, List.cons.injEq] at h
  obtain ⟨h0, h1, h2, h3, -⟩ := h
  rw [← packWord_bytes v, ← packWord_bytes v', h0, h1, h2, h3]

@[simp] theorem Memory.wordBytes_loadWord (m : Memory) (addr : Nat) :
    wordBytes (m.loadWord addr) = m.load addr 4 :=
  wordBytes_packWord _ _ _ _

/-- Byte `k` of a buffer word is the buffer's byte `k` places on. -/
theorem Memory.extractLsb'_loadWord (m : Memory) (addr : Nat) {k : Nat} (hk : k < 4) :
    (m.loadWord addr).extractLsb' (8 * k) 8 = m.read (addr + k) := by
  rw [← getD_wordBytes _ hk, Memory.wordBytes_loadWord, Memory.getD_load m addr 4 k hk]

/-- A byte of a stored word reads as the word's byte. -/
theorem Memory.read_storeWord_inside {m : Memory} (addr : Nat) (v : Word) {k : Nat}
    (hm : Memory.wf m) (hk : k < 4) :
    (m.storeWord addr v).read (addr + k) = v.extractLsb' (8 * k) 8 :=
  (Memory.read_store_inside m addr k (wordBytes v) hm hk).trans (getD_wordBytes v hk)

/-- The same byte as a number. -/
theorem Memory.toNat_read_storeWord {m : Memory} (addr : Nat) (v : Word) {k : Nat}
    (hm : Memory.wf m) (hk : k < 4) :
    ((m.storeWord addr v).read (addr + k)).toNat = v.toNat / 2 ^ (8 * k) % 256 := by
  rw [Memory.read_storeWord_inside addr v hm hk]
  simp [Nat.shiftRight_eq_div_pow]

theorem Memory.read_storeWord_other {m : Memory} {addr x : Nat} (v : Word) (hm : Memory.wf m)
    (hx : ¬(addr ≤ x ∧ x < addr + 4)) : (m.storeWord addr v).read x = m.read x :=
  Memory.read_store_other m addr x (wordBytes v) hm hx

theorem Memory.loadWord_storeWord_same {m : Memory} (addr : Nat) (v : Word) (hm : Memory.wf m) :
    (m.storeWord addr v).loadWord addr = v := by
  apply wordBytes_injective
  rw [Memory.wordBytes_loadWord]
  exact Memory.load_store m addr (wordBytes v) hm

theorem Memory.loadWord_storeWord_other {m : Memory} {addr x : Nat} (v : Word) (hm : Memory.wf m)
    (hx : x + 4 ≤ addr ∨ addr + 4 ≤ x) : (m.storeWord addr v).loadWord x = m.loadWord x := by
  apply wordBytes_injective
  rw [Memory.wordBytes_loadWord, Memory.wordBytes_loadWord]
  exact Memory.load_congr _ _ x 4 fun j hj => Memory.read_storeWord_other v hm (by omega)

/-- Reading on from where a load ended. -/
theorem Memory.load_add (m : Memory) (addr n k : Nat) :
    m.load addr (n + k) = m.load addr n ++ m.load (addr + n) k := by
  induction n generalizing addr with
  | zero => simp [Memory.load]
  | succ n ih =>
    rw [show n + 1 + k = n + k + 1 by omega, Memory.load, ih, Memory.load,
      show addr + 1 + n = addr + (n + 1) by omega, List.cons_append]

theorem Memory.take_load (m : Memory) (addr : Nat) {n k : Nat} (h : n ≤ k) :
    (m.load addr k).take n = m.load addr n := by
  obtain ⟨d, rfl⟩ := Nat.exists_eq_add_of_le h
  rw [Memory.load_add]
  exact List.take_left' (Memory.length_load m addr n)

/-- Consecutive words, unpacked, are the bytes they hold. -/
theorem Memory.flatMap_wordBytes_loadWord (m : Memory) (addr n : Nat) :
    (List.range n).flatMap (fun w => wordBytes (m.loadWord (addr + 4 * w))) = m.load addr (4 * n) := by
  induction n with
  | zero => rfl
  | succ n ih =>
    rw [List.range_succ, List.flatMap_append, ih, Nat.mul_succ, Memory.load_add]
    simp

/-! What a read returns (R23, R27, R56). -/

/-- STATUS as a number: ERR in bits 11:8, OVR in bit 2, READY in bit 1 and BUSY in bit 0. -/
theorem State.status_eq_ofNat (s : State) :
    s.status = BitVec.ofNat 32 (s.err.code.toNat * 256 + s.ovr.toNat * 4 +
      s.ready.toNat * 2 + s.busy.toNat) := by
  unfold State.status
  generalize s.err.code = err, s.ovr = ovr, s.ready = ready, s.busy = busy
  revert err ovr ready busy
  decide

theorem State.status_getLsbD_zero (s : State) : s.status.getLsbD 0 = s.busy := by
  simp only [State.status, BitVec.getLsbD_append]
  simp

theorem State.config_eq_ofNat (s : State) :
    s.config = BitVec.ofNat 32 (if s.policy = .literal then 1 else 0) := by
  cases h : s.policy <;> simp [State.config, h]

theorem memRead_status (s : State) : memRead s (portAddr 0x008) = s.status := rfl

theorem memRead_ibufWord (s : State) {w : Nat} (hw : w ≤ 65) :
    memRead s (portAddr (0x100 + 4 * w)) = s.mem.loadWord (ibufBase + 4 * w) := by
  simp only [memRead, portReg_ibufWord hw]

theorem memRead_obufWord (s : State) {w : Nat} (hw : w ≤ 65) :
    memRead s (portAddr (0x300 + 4 * w)) = s.mem.loadWord (obufBase + 4 * w) := by
  simp only [memRead, portReg_obufWord hw]

/-- A read sees the block alone: not the host's lists, and not whose turn comes next. -/
theorem memRead_of_world (s : State) (hostOps : List HostOp) (reads : List PortRead)
    (turns : List Agent) (a : PortAddr) :
    memRead { s with hostOps := hostOps, reads := reads, turns := turns } a = memRead s a := by
  unfold memRead
  cases portReg a <;> rfl

/-- The words that `readout` reads, unpacked and cut to OLEN bytes, are the output (R94). -/
theorem readoutBytes_eq_output (s : State) (hlen : s.olen.toNat ≤ 264) :
    readoutBytes (memRead s (portAddr 0x010))
      ((List.range (wordCount s.olen.toNat)).map fun w => memRead s (portAddr (0x300 + 4 * w))) =
    s.output := by
  have hcount : wordCount s.olen.toNat ≤ 66 ∧ s.olen.toNat ≤ 4 * wordCount s.olen.toNat := by
    unfold wordCount
    omega
  have hwords : (List.range (wordCount s.olen.toNat)).map
        (fun w => memRead s (portAddr (0x300 + 4 * w))) =
      (List.range (wordCount s.olen.toNat)).map fun w => s.mem.loadWord (obufBase + 4 * w) :=
    List.map_congr_left fun w hw => memRead_obufWord s (by rw [List.mem_range] at hw; omega)
  have holen : (memRead s (portAddr 0x010)).toNat = s.olen.toNat :=
    BitVec.toNat_setWidth_of_le (by decide)
  rw [readoutBytes, hwords, List.flatMap_map, Memory.flatMap_wordBytes_loadWord, holen,
    Memory.take_load _ _ hcount.2, State.output]

/-! What a write does (R52, R57). -/

theorem memWrite_ibufWord (s : State) (v : Word) {w : Nat} (hw : w ≤ 65) :
    memWrite s (portAddr (0x100 + 4 * w)) v =
      unlessBusy s { s with mem := s.mem.storeWord (ibufBase + 4 * w) v } := by
  simp only [memWrite, portReg_ibufWord hw]

/-- ILEN takes the low 9 bits of the value (R24). -/
theorem extractLsb'_eq_ofNat_mod (v : Word) : v.extractLsb' 0 9 = BitVec.ofNat 9 (v.toNat % 512) := by
  apply BitVec.eq_of_toNat_eq
  simp

/-- A write to any offset but those of CMD, STATUS, ILEN and IBUF is ignored. -/
theorem memWrite_ignored (s : State) (v : Word) {off : Nat} (hlt : off < 4096) (h4 : off % 4 = 0)
    (hcmd : off ≠ 0x004) (hstatus : off ≠ 0x008) (hilen : off ≠ 0x00C)
    (hibuf : ¬(0x100 ≤ off ∧ off ≤ 0x204)) : memWrite s (portAddr off) v = s := by
  simp only [memWrite, portReg, portOffset_portAddr hlt h4, if_neg hcmd, if_neg hstatus,
    if_neg hilen, if_neg hibuf]
  split_ifs <;> rfl

theorem WriteEffect.hostOps_eq (h : WriteEffect s a v t) : t.hostOps = s.hostOps := by
  cases h with
  | none h => exact h ▸ rfl
  | blocked hb hr h => exact h ▸ rfl
  | accept hb hr h => exact h ▸ rfl
  | length hb hr h => exact h ▸ rfl
  | word w hw hb hr h => exact h ▸ rfl
  | clear hr hv h => exact h ▸ rfl

@[simp] theorem memWrite_hostOps (s : State) (a : PortAddr) (v : Word) :
    (memWrite s a v).hostOps = s.hostOps :=
  (memWrite_effect s a v).hostOps_eq

/-! The turn of each agent (R63 to R65). -/

theorem step_of_host (ha : nextAgent s = .host) : step s = .next (hostMove s.popTurn) := by
  simp only [step, ha]

theorem step_of_engine (ha : nextAgent s = .engine) : step s = engineStep s.popTurn := by
  simp only [step, ha]

/-- On the engine's turn a pending command is run. -/
theorem step_of_pending (ha : nextAgent s = .engine) (hp : s.phase = .ready) (hd : s.pend = true) :
    step s = commandStep s.popTurn :=
  (step_of_engine ha).trans (engineStep_ready hp hd)

theorem commandStep_of_decode (hi : decode s.cmd = .ok i) : commandStep s = exec i s := by
  simp only [commandStep, hi]

/-- While BUSY the host's turn is a listed one, because the default turn is then the engine's. -/
theorem turns_eq_cons_of_host (hb : s.busy = true) (ha : nextAgent s = .host) :
    ∃ turns, s.turns = .host :: turns := by
  cases hturns : s.turns with
  | nil => simp [nextAgent, hturns, hb] at ha
  | cons a turns =>
    obtain rfl : a = .host := by simpa [nextAgent, hturns] using ha
    exact ⟨turns, rfl⟩

/-! The host's move, operation by operation (R90 to R94, R197). -/

theorem hostMove_wr (h : s.hostOps = .wr a v :: rest) :
    hostMove s = memWrite { s with hostOps := rest } a v := by
  simp only [hostMove, h]

theorem hostMove_rd (h : s.hostOps = .rd a :: rest) :
    hostMove s = { s with hostOps := rest, reads := s.reads ++ [⟨a, memRead s a, none⟩] } := by
  simp only [hostMove, h, hostRead, memRead_of_world s rest s.reads s.turns]

theorem hostMove_rdEq (h : s.hostOps = .rdEq a v :: rest) :
    hostMove s = { s with hostOps := rest, reads := s.reads ++ [⟨a, memRead s a, some v⟩] } := by
  simp only [hostMove, h, hostRead, memRead_of_world s rest s.reads s.turns]

/-- `poll` stays in the list while BUSY is 1 (R93). -/
theorem hostMove_poll (h : s.hostOps = .poll :: rest) :
    hostMove s = { s with
      hostOps := if s.busy then .poll :: rest else rest,
      reads := s.reads ++ [⟨portAddr 0x008, memRead s (portAddr 0x008), none⟩] } := by
  simp only [hostMove, h, hostRead, memRead_of_world s rest s.reads s.turns]
  rw [memRead_status, State.status_getLsbD_zero]
  cases s.busy with
  | true => simp [← h]
  | false => simp

/-- `readout` reads OLEN and puts the reads of the words that hold as many bytes first (R94). -/
theorem hostMove_readout (h : s.hostOps = .readout :: rest) :
    hostMove s = { s with
      hostOps := readoutOps s.olen.toNat ++ rest,
      reads := s.reads ++ [⟨portAddr 0x010, memRead s (portAddr 0x010), none⟩] } := by
  simp only [hostMove, h, hostRead]
  rw [memRead_of_world s _ s.reads s.turns]

theorem hostMove_driveKey {k : Key} (h : s.hostOps = .driveKey k :: rest) :
    hostMove s = { s with hostOps := rest, keyIn := k } := by
  simp only [hostMove, h]

/-- A host's move puts no reset in its list. -/
theorem reset_notMem_hostMove (hr : .reset ∉ s.hostOps) : .reset ∉ (hostMove s).hostOps := by
  rcases hops : s.hostOps with - | ⟨op, rest⟩
  · simp [hostMove, hops]
  · rw [hops, List.mem_cons, not_or] at hr
    obtain ⟨hop, hrest⟩ := hr
    cases op with
    | wr a v => simpa [hostMove_wr hops] using hrest
    | rd a => simpa [hostMove_rd hops] using hrest
    | rdEq a v => simpa [hostMove_rdEq hops] using hrest
    | poll =>
      rw [hostMove_poll hops]
      cases s.busy <;> simpa using hrest
    | readout => simpa [hostMove_readout hops, readoutOps] using hrest
    | driveKey k => simpa [hostMove_driveKey hops] using hrest
    | reset => exact absurd rfl hop

/-! What the host leaves of a pending command (R34, R62). -/

/-- `t` has all that a pending command of `s` reads, and all that it commits over: what may differ is
OVR, the level on the key pins, the host's lists and the list of turns. -/
structure KeepsCommand (s t : State) : Prop extends SameInstance s t where
  cmd : t.cmd = s.cmd
  ilen : t.ilen = s.ilen
  olen : t.olen = s.olen
  result : t.result = s.result
  mem : t.mem = s.mem
  phase : t.phase = s.phase
  pend : t.pend = s.pend

theorem keepsCommand_of_other_fields (s : State) (ovr : Bool) (keyIn : Key) (hostOps : List HostOp)
    (reads : List PortRead) (turns : List Agent) :
    KeepsCommand s { s with
      ovr := ovr, keyIn := keyIn, hostOps := hostOps, reads := reads, turns := turns } :=
  ⟨⟨rfl, rfl, rfl⟩, rfl, rfl, rfl, rfl, rfl, rfl, rfl⟩

theorem KeepsCommand.refl (s : State) : KeepsCommand s s :=
  keepsCommand_of_other_fields s s.ovr s.keyIn s.hostOps s.reads s.turns

theorem KeepsCommand.trans (h : KeepsCommand s t) (h' : KeepsCommand t u) : KeepsCommand s u where
  policy := h'.policy.trans h.policy
  tables := h'.tables.trans h.tables
  key := h'.key.trans h.key
  cmd := h'.cmd.trans h.cmd
  ilen := h'.ilen.trans h.ilen
  olen := h'.olen.trans h.olen
  result := h'.result.trans h.result
  mem := h'.mem.trans h.mem
  phase := h'.phase.trans h.phase
  pend := h'.pend.trans h.pend

theorem KeepsCommand.input (h : KeepsCommand s t) : t.input = s.input := by
  rw [State.input, State.input, h.mem, h.ilen]

theorem KeepsCommand.readAlike (h : KeepsCommand s t) : ReadAlike s t :=
  ⟨h.ilen, h.input, State.perm_congr h.tables h.key, h.key, h.policy⟩

/-- A write while BUSY has no effect but on OVR (R57). -/
theorem WriteEffect.of_busy (h : WriteEffect s a v t) (hb : s.busy = true) :
    t = { s with ovr := t.ovr } := by
  cases h with
  | none h => exact h ▸ rfl
  | blocked _ hr h => exact h ▸ rfl
  | clear hr hv h => exact h ▸ rfl
  | accept hidle => simp [hb] at hidle
  | length hidle => simp [hb] at hidle
  | word w hw hidle => simp [hb] at hidle

/-- While BUSY a host's move that is no reset leaves the command and the list of turns. -/
theorem MoveEffect.of_busy (h : MoveEffect s t) (hb : s.busy = true)
    (hr : s.hostOps.head? ≠ some .reset) : KeepsCommand s t ∧ t.turns = s.turns := by
  cases h with
  | idle h ht => exact ht ▸ ⟨keepsCommand_of_other_fields _ _ _ _ _ _, rfl⟩
  | write a v rest h ht =>
    have ht' := ht.of_busy hb
    rw [ht']
    exact ⟨keepsCommand_of_other_fields _ _ _ _ _ _, rfl⟩
  | read a x ops h ht => exact ht ▸ ⟨keepsCommand_of_other_fields _ _ _ _ _ _, rfl⟩
  | drive k rest h ht => exact ht ▸ ⟨keepsCommand_of_other_fields _ _ _ _ _ _, rfl⟩
  | reset rest h => simp [h] at hr

/-- The same commit of both leaves the same error code, output length, result and memory. -/
theorem KeepsCommand.commit_eq {s' t' : State} (h : KeepsCommand s t)
    (hc : SameCommit s t s' t') :
    t'.err = s'.err ∧ t'.olen = s'.olen ∧ t'.result = s'.result ∧ t'.mem = s'.mem := by
  obtain ⟨e, rfl, rfl⟩ | ⟨out, res, rfl, rfl⟩ := hc
  · exact ⟨rfl, rfl, rfl, h.mem⟩
  · cases out <;> simp [h.olen, h.result, h.mem]

/-- A command does the same on both. -/
theorem KeepsCommand.exec_eq {s' t' : State} (h : KeepsCommand s t) (hs : exec i s = .next s')
    (ht : exec i t = .next t') :
    t'.err = s'.err ∧ t'.olen = s'.olen ∧ t'.result = s'.result ∧ t'.mem = s'.mem := by
  obtain ⟨x, y, hx, hy, hc⟩ := exec_sameCommit i h.readAlike
  obtain rfl : x = s' := by simpa [hs] using hx.symm
  obtain rfl : y = t' := by simpa [ht] using hy.symm
  exact h.commit_eq hc

/-- The host's turn while a command is pending, reset apart: the command is kept and a listed turn used
up. -/
theorem hostMove_of_pending (hd : s.pend = true) (hr : s.hostOps.head? ≠ some .reset) :
    KeepsCommand s (hostMove s.popTurn) ∧ (hostMove s.popTurn).turns = s.turns.tail := by
  have hb : s.busy = true := s.busy_eq_true_iff.mpr (.inr hd)
  obtain ⟨hk, ht⟩ := (hostMove_effect s.popTurn).of_busy hb hr
  have hpop : KeepsCommand s s.popTurn := keepsCommand_of_other_fields _ _ _ _ _ _
  exact ⟨hpop.trans hk, ht⟩

/-! Runs (R65, R239). -/

theorem run_succ_of_step (h : step s = .next t) (k : Nat) :
    core.run (k + 1) s = core.run k t := by
  have h' : core.step s = .next t := h
  simp only [Host.Core.run, h']

/-- One more step at the end of a run. -/
theorem run_succ_of_run {k : Nat} (hk : core.run k s = .next u) (h : step u = .next t) :
    core.run (k + 1) s = .next t := by
  induction k generalizing s with
  | zero =>
    obtain rfl : s = u := Host.Outcome.next.inj hk
    exact run_succ_of_step h 0
  | succ k ih =>
    obtain ⟨s', hs, -⟩ := step_effect s
    exact (run_succ_of_step hs (k + 1)).trans (ih ((run_succ_of_step hs k).symm.trans hk))

/-- A pending command stays as it is until the engine's turn or a reset comes, which is after at most as
many steps as there are listed turns. -/
theorem run_pending_to_engine_or_reset (s : State) (hd : s.pend = true) :
    ∃ k ≤ s.turns.length, ∃ u, core.run k s = .next u ∧ KeepsCommand s u ∧
      (.reset ∉ s.hostOps → .reset ∉ u.hostOps) ∧
      (nextAgent u = .engine ∨ (nextAgent u = .host ∧ u.hostOps.head? = some .reset)) := by
  induction hturns : s.turns generalizing s with
  | nil =>
    have hb : s.busy = true := s.busy_eq_true_iff.mpr (.inr hd)
    exact ⟨0, le_rfl, s, rfl, .refl s, id, .inl (by simp [nextAgent, hturns, hb])⟩
  | cons agent turns ih =>
    have ha : nextAgent s = agent := by simp [nextAgent, hturns]
    by_cases hstop : agent = .engine ∨ s.hostOps.head? = some .reset
    · refine ⟨0, Nat.zero_le _, s, rfl, .refl s, id, ?_⟩
      cases agent with
      | engine => exact .inl ha
      | host => exact .inr ⟨ha, by simpa using hstop⟩
    · obtain ⟨hagent, hr⟩ := not_or.mp hstop
      obtain rfl : agent = .host := by cases agent <;> simp at hagent ⊢
      obtain ⟨hkeep, htail⟩ := hostMove_of_pending hd hr
      obtain ⟨k, hk, u, hrun, hkeep', hreset, hend⟩ := ih (hostMove s.popTurn)
        (hkeep.pend.trans hd) (by rw [htail, hturns]; rfl)
      exact ⟨k + 1, by simpa using hk, u, (run_succ_of_step (step_of_host ha) k).trans hrun,
        hkeep.trans hkeep', fun h => hreset (reset_notMem_hostMove h), hend⟩

/-- PEND falls at the engine's turn and at the reset event alike (R65, R233). -/
theorem step_pend_of_engine_or_reset (h : step s = .next t) (hp : s.phase = .ready)
    (hend : nextAgent s = .engine ∨ (nextAgent s = .host ∧ s.hostOps.head? = some .reset)) :
    t.pend = false := by
  obtain ha | ⟨ha, hr⟩ := hend
  · exact step_engine_ready h ha hp
  · obtain ⟨rest, hops⟩ := List.head?_eq_some_iff.mp hr
    rw [step_of_host ha] at h
    obtain rfl : hostMove s.popTurn = t := by simpa using h
    simp [hostMove, hops]

end Sys2Proof.Machine
end

section
/-! SUPPORT. The obligations on the port and the host's turn (spec 20_memory.md), from the laws above. -/

namespace Sys2Proof.Proofs

open Sys2Proof.Machine

/-- Settles O6: the step is the command step, which runs what CMD decodes to. -/
theorem stepRunsTheDecodedCommand : Obligations.StepRunsTheDecodedCommand := by
  have run (s : State) (i : Instr) (ha : nextAgent s = .engine) (hp : s.phase = .ready)
      (hd : s.pend = true) (hi : decode s.cmd = .ok i) : step s = exec i s.popTurn :=
    (step_of_pending ha hp hd).trans (commandStep_of_decode hi)
  exact ⟨run, fun s w i hi => run (s.withFetchWord 32 w) i rfl rfl rfl hi⟩

/-- Settles O17: the run to the engine's turn or a reset, and one step more. -/
theorem pendingCommandCompletesUnlessReset : Obligations.PendingCommandCompletesUnlessReset := by
  intro s hp hd
  obtain ⟨k, hk, u, hrun, hkeep, hreset, hend⟩ := run_pending_to_engine_or_reset s hd
  have hpu : u.phase = .ready := hkeep.phase.trans hp
  have hdu : u.pend = true := hkeep.pend.trans hd
  obtain ⟨t, ht, -⟩ := step_effect u
  have hrun' : core.run (k + 1) s = .next t := run_succ_of_run hrun ht
  have htd : t.pend = false := step_pend_of_engine_or_reset ht hpu hend
  refine ⟨⟨k + 1, by omega, t, hrun', htd⟩, fun hr => ?_⟩
  have ha : nextAgent u = .engine :=
    hend.resolve_right fun h => hreset hr (List.mem_of_mem_head? h.2)
  have hcmd : commandStep u.popTurn = .next t := (step_of_pending ha hpu hdu).symm.trans ht
  exact ⟨k, hk, u, t, hrun, ha, hpu, hdu, hkeep.cmd, hkeep.input, hkeep.mem, hkeep.key, hkeep.policy,
    hkeep.tables, hrun', hcmd, htd⟩

/-- Settles O19: the registers by the address map, and the step of each form of read by the host's
move. -/
theorem hostReadsReturnTheRegisters : Obligations.HostReadsReturnTheRegisters := by
  refine ⟨fun s => ⟨rfl, rfl, s.status_eq_ofNat, rfl, rfl, rfl, s.config_eq_ofNat,
      fun w hw => ⟨memRead_ibufWord s hw, memRead_obufWord s hw⟩,
      fun off hlt h4 hres => by simp only [memRead, portReg_reserved hlt h4 hres]⟩,
    fun s a rest ha h => ?_, fun s a v rest ha h => ?_, fun s rest ha h => ?_, fun s rest ha h => ?_,
    readoutBytes_eq_output⟩
  · rw [step_of_host ha, hostMove_rd (s := s.popTurn) h]
    rfl
  · rw [step_of_host ha, hostMove_rdEq (s := s.popTurn) h]
    rfl
  · rw [step_of_host ha, hostMove_poll (s := s.popTurn) h]
    rfl
  · rw [step_of_host ha, hostMove_readout (s := s.popTurn) h]
    rfl

/-- Settles O20: the step is the host's move, and the writes act by what the address map gives; the bytes
of an IBUF word are those of the stored word. -/
theorem hostWritesActByOffset : Obligations.HostWritesActByOffset := by
  refine ⟨fun s a v rest ha h => ?_, fun s k rest ha h => ?_, fun s v hm => ⟨rfl, ?_,
    fun w hw => ⟨fun hb => ?_, fun hb => ⟨s.mem.storeWord (ibufBase + 4 * w) v, ?_⟩⟩, rfl,
    fun _ => memWrite_ignored s v⟩⟩
  · rw [step_of_host ha, hostMove_wr (s := s.popTurn) h]
    rfl
  · rw [step_of_host ha, hostMove_driveKey (s := s.popTurn) h]
    rfl
  · rw [← extractLsb'_eq_ofNat_mod]
    rfl
  · rw [memWrite_ibufWord s v hw, unlessBusy_of_busy hb]
  · refine ⟨by rw [memWrite_ibufWord s v hw, unlessBusy_of_idle hb], Memory.store_wf _ _ _ hm, ?_,
      Memory.toNat_read_storeWord _ v hm (k := 1) (by decide),
      Memory.toNat_read_storeWord _ v hm (k := 2) (by decide),
      Memory.toNat_read_storeWord _ v hm (k := 3) (by decide),
      fun x hx => Memory.read_storeWord_other v hm hx⟩
    simpa [ibufBase] using Memory.toNat_read_storeWord (ibufBase + 4 * w) v hm (k := 0) (by decide)

/-- Settles O21, by the address map. -/
theorem reservedAndReadOnlyOffsets : Obligations.ReservedAndReadOnlyOffsets := by
  intro s off hlt h4
  refine ⟨fun hres => ⟨?_, fun v => ?_⟩, fun hro v => ?_⟩
  · simp only [memRead, portReg_reserved hlt h4 hres]
  · exact memWrite_ignored s v hlt h4 (by omega) (by omega) (by omega) (by omega)
  · exact memWrite_ignored s v hlt h4 (by omega) (by omega) (by omega) (by omega)

/-- Settles O22: the words of the buffers are those of memory, and a stored word is loaded back. -/
theorem bufferWordsAreLittleEndian : Obligations.BufferWordsAreLittleEndian := by
  refine ⟨fun s w hw k hk => ?_, fun s w v hm hb hw => ?_⟩
  · rw [memRead_ibufWord s hw, memRead_obufWord s hw, Memory.extractLsb'_loadWord _ _ hk,
      Memory.extractLsb'_loadWord _ _ hk]
    simp only [State.ibuf, State.obuf, Nat.add_assoc, and_self]
  · rw [memWrite_ibufWord s v hw, unlessBusy_of_idle hb]
    refine ⟨?_, fun u hu hne => ?_⟩
    · rw [memRead_ibufWord _ hw, Memory.loadWord_storeWord_same _ v hm]
    · rw [memRead_ibufWord _ hu, memRead_ibufWord _ hu,
        Memory.loadWord_storeWord_other v hm (by omega)]

/-- Settles O23: the accepted write changes CMD and PEND alone, and a host's move keeps the command. -/
theorem inputIsFixedWhilePending : Obligations.InputIsFixedWhilePending := by
  refine ⟨fun s v hb => ?_, fun s t hd ha hr h => ?_⟩
  · have haccept : memWrite s (portAddr 0x004) v = { s with cmd := v, pend := true } :=
      unlessBusy_of_idle hb
    rw [haccept]
    exact ⟨rfl, rfl⟩
  · obtain rfl : hostMove s.popTurn = t := Host.Outcome.next.inj ((step_of_host ha).symm.trans h)
    obtain ⟨hkeep, -⟩ := hostMove_of_pending hd hr
    exact ⟨hkeep.cmd, hkeep.ilen, hkeep.mem, hkeep.input, hkeep.pend.trans hd,
      fun _ _ _ hs ht => hkeep.exec_eq hs ht⟩

end Sys2Proof.Proofs
end

section
/-! SUPPORT. The decoder (spec 30_encoding.md R80 to R85): which words decode and to what, and the rows of
the opcode table by the fields of the word they match. -/

namespace Sys2Proof

open Sys2Proof.Machine

variable {w : Word} {op : Byte} {imm : Word24} {i j : Instr}

/-! Which words decode, and to what (R80 to R82). -/

theorem decodeZ_eq_ok_iff : decodeZ i op imm = .ok j ↔ imm = 0#24 ∧ i = j := by
  unfold decodeZ
  split_ifs with h <;> simp [h]

@[simp] theorem opField_encode (i : Instr) : opField (encode i) = opcodeOf i :=
  opField_commandWord _ _

@[simp] theorem immField_encode (i : Instr) : immField (encode i) = immOf i :=
  immField_commandWord _ _

/-- The opcode picks the row; its command takes the operand from IMM, or needs IMM to be zero. -/
theorem decode_encode (i : Instr) : decode (encode i) = .ok i := by
  simp only [decode, opField_encode, immField_encode]
  cases i <;> simp [opcodeOf, immOf, decodeZ]

/-- A word that decodes has the fields of the command it decodes to. -/
theorem fields_of_decode (h : decode w = .ok i) : opField w = opcodeOf i ∧ immField w = immOf i := by
  simp only [decode] at h
  split at h <;> rename_i hop
  case h_2 | h_3 | h_4 | h_5 =>
    cases h
    exact ⟨BitVec.eq_of_toNat_eq hop, by simp [immOf]⟩
  case h_14 => cases h
  all_goals
    obtain ⟨himm, rfl⟩ := decodeZ_eq_ok_iff.mp h
    exact ⟨BitVec.eq_of_toNat_eq hop, himm⟩

theorem encode_of_decode (h : decode w = .ok i) : encode i = w := by
  obtain ⟨hop, himm⟩ := fields_of_decode h
  rw [encode, ← hop, ← himm, commandWord_fields]

/-- The legal words: an I-form opcode with any IMM, or a Z-form opcode with IMM zero (R80, R84, R85). -/
theorem exists_decode_iff : (∃ i, decode w = .ok i) ↔
    (opField w).toNat ∈ [1, 2, 3, 4] ∨
      ((opField w).toNat ∈ [0, 5, 6, 7, 8, 9, 10, 11, 12] ∧ immField w = 0#24) := by
  simp only [decode]
  split <;> rename_i hop
  case h_2 | h_3 | h_4 | h_5 => simp [hop]
  case h_14 =>
    simp only [reduceCtorEq, exists_false, List.mem_cons, List.not_mem_nil, or_false, false_iff]
    tauto
  all_goals simp [hop, decodeZ_eq_ok_iff]

/-- A command of a given opcode is what a word decodes to iff the word has that opcode and is legal. -/
theorem exists_decode_opcode_iff :
    (∃ i, decode w = .ok i ∧ opcodeOf i = op) ↔ opField w = op ∧ ∃ i, decode w = .ok i := by
  constructor
  · rintro ⟨i, hi, rfl⟩
    exact ⟨(fields_of_decode hi).1, i, hi⟩
  · rintro ⟨rfl, i, hi⟩
    exact ⟨i, hi, (fields_of_decode hi).1.symm⟩

/-- The assigned opcodes (R82, R84). -/
theorem exists_opcodeOf_iff : (∃ i, opcodeOf i = op) ↔ op.toNat < 0x0D := by
  constructor
  · rintro ⟨i, rfl⟩
    cases i <;> simp [opcodeOf]
  · intro hop
    have hlegal : ∃ i, decode (commandWord op 0#24) = .ok i := by
      simp only [exists_decode_iff, opField_commandWord, immField_commandWord, List.mem_cons,
        List.not_mem_nil, or_false, and_true]
      omega
    obtain ⟨i, hi⟩ := hlegal
    exact ⟨i, (fields_of_decode hi).1.symm.trans (opField_commandWord _ _)⟩

theorem opField_lt_of_decode (h : decode w = .ok i) : (opField w).toNat < 0x0D :=
  exists_opcodeOf_iff.mp ⟨i, (fields_of_decode h).1.symm⟩

/-! The rows of the opcode table (R83). -/

/-- An opcode widened to a word is the opcode with IMM zero: the word a Z-form row asks for. -/
theorem setWidth_eq_commandWord (op : Byte) : op.setWidth 32 = commandWord op 0#24 :=
  BitVec.setWidth_eq_append (by decide)

/-- The mask of an I-form row keeps the opcode. -/
theorem and_opMask (w : Word) : w &&& 0x000000FF#32 = (opField w).setWidth 32 := by
  apply BitVec.eq_of_toNat_eq
  have hmask : w.toNat &&& 255 = w.toNat % 256 := Nat.and_two_pow_sub_one_eq_mod _ 8
  simp only [opField, BitVec.toNat_and, BitVec.toNat_ofNat, BitVec.toNat_setWidth,
    BitVec.extractLsb'_toNat, Nat.shiftRight_zero, Nat.reducePow, Nat.reduceMod, hmask]
  omega

theorem and_opMask_eq_iff : w &&& 0x000000FF#32 = op.setWidth 32 ↔ opField w = op := by
  rw [and_opMask]
  refine ⟨fun h => ?_, fun h => h ▸ rfl⟩
  simpa [setWidth_eq_commandWord] using congrArg opField h

theorem eq_setWidth_iff : w = op.setWidth 32 ↔ opField w = op ∧ immField w = 0#24 := by
  rw [setWidth_eq_commandWord]
  constructor
  · rintro rfl
    simp
  · rintro ⟨rfl, himm⟩
    rw [← himm, commandWord_fields]

theorem iForm_matches_iff : (OpcodeRow.iForm op).matches w = true ↔ opField w = op := by
  simpa [OpcodeRow.iForm, OpcodeRow.matches] using and_opMask_eq_iff

theorem zForm_matches_iff :
    (OpcodeRow.zForm op).matches w = true ↔ opField w = op ∧ immField w = 0#24 := by
  have hmask : w &&& 0xFFFFFFFF#32 = w := BitVec.and_allOnes
  simpa [OpcodeRow.zForm, OpcodeRow.matches, hmask] using eq_setWidth_iff

/-- A row's value has the opcode of each word it matches, because every row's mask holds all of OP. -/
theorem value_and_opMask_of_matches {r : OpcodeRow} (hr : r ∈ opcodeRows) (h : r.matches w = true) :
    r.value &&& 0x000000FF#32 = w &&& 0x000000FF#32 := by
  have hmask : ∀ r ∈ opcodeRows, r.mask &&& 0x000000FF#32 = 0x000000FF#32 := by decide
  have hvalue : w &&& r.mask = r.value := by simpa [OpcodeRow.matches] using h
  rw [← hvalue, BitVec.and_assoc, hmask r hr]

/-- The table lists each opcode once. -/
theorem opcodeRows_eq_of_opcode : ∀ r₁ ∈ opcodeRows, ∀ r₂ ∈ opcodeRows,
    r₁.value &&& 0x000000FF#32 = r₂.value &&& 0x000000FF#32 → r₁ = r₂ := by
  decide

/-- The table's rows match the legal words. -/
theorem commandWordWF_iff : commandWordWF w = true ↔ ∃ i, decode w = .ok i := by
  rw [exists_decode_iff]
  simp only [commandWordWF, opcodeRows, List.any_cons, List.any_nil, Bool.or_eq_true,
    Bool.false_eq_true, iForm_matches_iff, zForm_matches_iff, ← BitVec.toNat_inj, BitVec.toNat_ofNat,
    Nat.reducePow, Nat.reduceMod, List.mem_cons, List.not_mem_nil, or_false]
  tauto

/-! Words as numbers (R80, R102). -/

/-- The word of a command as a number: IMM above the opcode (R80). -/
theorem toNat_commandWord (op : Byte) (imm : Word24) :
    (commandWord op imm).toNat = imm.toNat * 256 + op.toNat := by
  rw [commandWord, BitVec.toNat_append, ← Nat.shiftLeft_add_eq_or_of_lt op.isLt, Nat.shiftLeft_eq]

theorem toNat_join24 (hi mid lo : Byte) :
    (join24 hi mid lo).toNat = hi.toNat * 65536 + mid.toNat * 256 + lo.toNat := by
  rw [join24, BitVec.toNat_append, BitVec.toNat_append, ← Nat.shiftLeft_add_eq_or_of_lt lo.isLt,
    ← Nat.shiftLeft_add_eq_or_of_lt mid.isLt, Nat.shiftLeft_eq, Nat.shiftLeft_eq]
  omega

/-! Words in the machine (R57, R202). -/

/-- The command step of a word that is no command (R202). -/
theorem commandStep_of_illegal {s : State} (h : ∀ i, decode s.cmd ≠ .ok i) :
    commandStep s = .next (raiseErr .illegalCommand s) := by
  unfold commandStep
  cases hd : decode s.cmd with
  | ok i => exact absurd hd (h i)
  | error e => rfl

/-- An idle block accepts any word into CMD (R57). -/
theorem memWrite_cmd_of_idle {s : State} (hb : s.busy = false) (w : Word) :
    memWrite s (portAddr 0x004) w = { s with cmd := w, pend := true } :=
  unlessBusy_of_idle hb

end Sys2Proof
end

section
/-! SUPPORT. The assembler (spec 30_encoding.md R89): the command of each mnemonic, and the lines it
accepts. -/

namespace Sys2Proof.Machine

variable {m : List Char} {ops : List Nat} {n : Nat} {i : Instr}

/-! The mnemonics. -/

/-- A chain of tests for mnemonics answers iff one of them holds. -/
theorem isSome_ite_some {α : Type} {p : Prop} [Decidable p] {a : α} {o : Option α} :
    (if p then some a else o).isSome = true ↔ p ∨ o.isSome = true := by
  split_ifs with h <;> simp [h]

theorem isSome_zCommand_iff : (zCommand m).isSome = true ↔ m ∈ zMnemonics := by
  simp only [zCommand, zMnemonics, isSome_ite_some, Option.isSome_none, Bool.false_eq_true,
    List.map_cons, List.map_nil, List.mem_cons, List.not_mem_nil]

theorem isSome_immCommand_iff (imm : Word24) :
    (immCommand m imm).isSome = true ↔ m ∈ immMnemonics := by
  simp only [immCommand, immMnemonics, isSome_ite_some, Option.isSome_none, Bool.false_eq_true,
    List.map_cons, List.map_nil, List.mem_cons, List.not_mem_nil]

theorem immMnemonics_notMem_zMnemonics : ∀ m ∈ immMnemonics, m ∉ zMnemonics := by decide

theorem getcode_notMem_zMnemonics : "GETCODE".toList ∉ zMnemonics := by decide

theorem getcode_notMem_immMnemonics : "GETCODE".toList ∉ immMnemonics := by decide

/-! What a line spells, by the kind of its mnemonic. -/

theorem assemble_of_zCommand (h : zCommand m = some i) :
    assemble ⟨m, ops⟩ = if ops = [] then .ok i else .error .operandCount := by
  simp only [assemble, h]

theorem assemble_of_notMem_zMnemonics (h : m ∉ zMnemonics) :
    assemble ⟨m, ops⟩ =
      if m ∈ immMnemonics then assembleImm m ops
      else if m = "GETCODE".toList then assembleGetcode ops
      else .error .unknownMnemonic := by
  have hz : zCommand m = none := by
    rwa [← isSome_zCommand_iff, Bool.not_eq_true, Option.isSome_eq_false_iff,
      Option.isNone_iff_eq_none] at h
  simp only [assemble, hz, isSome_immCommand_iff]

theorem assemble_of_immCommand (hi : immCommand m (BitVec.ofNat 24 n) = some i)
    (hn : n < 2 ^ 24) : assemble ⟨m, [n]⟩ = .ok i := by
  have hm : m ∈ immMnemonics := (isSome_immCommand_iff _).mp (by rw [hi, Option.isSome_some])
  rw [assemble_of_notMem_zMnemonics (immMnemonics_notMem_zMnemonics m hm), if_pos hm]
  simp only [assembleImm, hi, if_pos hn]

theorem assemble_getcode (ops : List Nat) : assemble ⟨"GETCODE".toList, ops⟩ = assembleGetcode ops := by
  rw [assemble_of_notMem_zMnemonics getcode_notMem_zMnemonics, if_neg getcode_notMem_immMnemonics,
    if_pos rfl]

/-! The lines accepted. -/

/-- A well-formed line, by the kind of its mnemonic. -/
theorem asmLine_wf_iff : AsmLine.wf ⟨m, ops⟩ = true ↔
    (m ∈ zMnemonics ∧ ops = []) ∨
    (m ∈ immMnemonics ∧ ops.length = 1 ∧ ∀ n ∈ ops, n < 2 ^ 24) ∨
    (m = "GETCODE".toList ∧ ops.length = 3 ∧ ∀ n ∈ ops, n < 2 ^ 8) := by
  simp only [AsmLine.wf, Bool.or_eq_true, Bool.and_eq_true, List.contains_iff_mem, beq_iff_eq,
    List.all_eq_true, decide_eq_true_eq, List.isEmpty_iff, and_assoc, or_assoc]

theorem exists_assembleImm_iff (hm : m ∈ immMnemonics) :
    (∃ i, assembleImm m ops = .ok i) ↔ ops.length = 1 ∧ ∀ n ∈ ops, n < 2 ^ 24 := by
  unfold assembleImm
  split
  next n =>
    obtain ⟨i, hi⟩ := Option.isSome_iff_exists.mp
      ((isSome_immCommand_iff (BitVec.ofNat 24 n)).mpr hm)
    rw [hi]
    split_ifs with hn <;> simpa using hn
  next hne => simpa [List.length_eq_one_iff] using fun n hn => absurd hn (hne n)

theorem exists_assembleGetcode_iff : (∃ i, assembleGetcode ops = .ok i) ↔
    ops.length = 3 ∧ ∀ n ∈ ops, n < 2 ^ 8 := by
  unfold assembleGetcode
  split
  next x y z => split_ifs with hn <;> simpa using hn
  next hne => simpa [List.length_eq_three] using fun x y z hn => absurd hn (hne x y z)

theorem exists_assemble_iff_wf : (∃ i, assemble ⟨m, ops⟩ = .ok i) ↔ AsmLine.wf ⟨m, ops⟩ = true := by
  rw [asmLine_wf_iff]
  by_cases hz : m ∈ zMnemonics
  · obtain ⟨i, hi⟩ := Option.isSome_iff_exists.mp (isSome_zCommand_iff.mpr hz)
    have himm : m ∉ immMnemonics := fun h => immMnemonics_notMem_zMnemonics m h hz
    have hgetcode : m ≠ "GETCODE".toList := fun h => getcode_notMem_zMnemonics (h ▸ hz)
    rw [assemble_of_zCommand hi]
    split_ifs with hops
    · simp [hz, hops]
    · simp only [hz, himm, hgetcode, hops, and_false, false_and, or_self, exists_false]
  · rw [assemble_of_notMem_zMnemonics hz]
    split_ifs with himm hgetcode
    · have hgetcode : m ≠ "GETCODE".toList := fun h => getcode_notMem_immMnemonics (h ▸ himm)
      simp only [exists_assembleImm_iff himm, hz, himm, hgetcode, false_and, true_and, false_or,
        or_false]
    · subst hgetcode
      simp only [exists_assembleGetcode_iff, hz, himm, false_and, true_and, false_or]
    · simp only [hz, himm, hgetcode, false_and, or_self, exists_false]

end Sys2Proof.Machine
end

section
/-! SUPPORT. The host's pseudo-operations over several turns (spec 30_encoding.md R91, R93): how `poll`
ends and what `load` leaves. -/

namespace Sys2Proof.Machine

variable {s t : State} {rest : List HostOp}

/-! `poll` (R93). -/

/-- The host has gone past its `poll`: it stands at what follows, and the last word it read is a STATUS
word with BUSY = 0. -/
def PollDone (rest : List HostOp) (t : State) : Prop :=
  t.hostOps = rest ∧
    ∃ r, t.reads.getLast? = some r ∧ r.addr = portAddr 0x008 ∧ r.value.getLsbD 0 = false

/-- The engine's turn leaves the host's list and uses up a listed turn. -/
theorem step_engine_world (h : step s = .next t) (ha : nextAgent s = .engine) :
    t.hostOps = s.hostOps ∧ t.turns = s.turns.tail := by
  cases step_cases h with
  | build _ hp ht => exact ht ▸ ⟨rfl, rfl⟩
  | error _ hp hd ht =>
    obtain ⟨e, -, -, rfl⟩ := ht
    exact ⟨rfl, rfl⟩
  | success i _ hp hd hi ht =>
    obtain ⟨out, res, rfl, -⟩ := ht
    exact ⟨by simp, by simp⟩
  | rest _ hp hd ht => exact ht ▸ ⟨rfl, rfl⟩
  | host ha' => simp [ha] at ha'

/-- After the engine's turn the block is idle: either step of the engine ends what made it BUSY (R65). -/
theorem step_engine_idle (hs : s.Inv) (h : step s = .next t) (ha : nextAgent s = .engine) :
    t.busy = false := by
  rw [State.busy_eq_false_iff]
  cases step_block h with
  | build _ hp hi hphase hpend =>
    have hd : s.pend = false :=
      Bool.eq_false_iff.mpr fun hd => by simp [hs.pendOnlyReady hd] at hp
    exact ⟨hphase, hpend.trans hd⟩
  | command _ hp hf => exact ⟨hf.phase.trans hp, hf.pend⟩
  | reset ha' => simp [ha] at ha'
  | write a v rest ha' => simp [ha] at ha'
  | other ha' => simp [ha] at ha'

/-- On the host's turn a `poll` of an idle block ends. -/
theorem step_poll_of_idle (ha : nextAgent s = .host) (h : s.hostOps = .poll :: rest)
    (hb : s.busy = false) : ∃ t, step s = .next t ∧ PollDone rest t := by
  refine ⟨_, step_of_host ha, ?_⟩
  rw [hostMove_poll (s := s.popTurn) h]
  exact ⟨by simp [hb], _, List.getLast?_concat, rfl, (State.status_getLsbD_zero s.popTurn).trans hb⟩

/-- On the host's turn a `poll` of a BUSY block stays. -/
theorem hostMove_poll_of_busy (h : s.hostOps = .poll :: rest) (hb : s.busy = true) :
    (hostMove s.popTurn).hostOps = .poll :: rest ∧ (hostMove s.popTurn).turns = s.turns.tail := by
  rw [hostMove_poll (s := s.popTurn) h]
  simp [hb]

theorem nextAgent_of_idle (ht : s.turns = []) (hb : s.busy = false) : nextAgent s = .host := by
  simp [nextAgent, ht, hb]

/-- With no turn listed `poll` ends in two steps: the engine's, if the block is BUSY, and the host's. -/
theorem run_poll_of_no_turns (hs : s.Inv) (h : s.hostOps = .poll :: rest) (ht : s.turns = []) :
    ∃ k ≤ 2, ∃ t, core.run k s = .next t ∧ PollDone rest t := by
  cases hb : s.busy with
  | false =>
    obtain ⟨t, hstep, hdone⟩ := step_poll_of_idle (nextAgent_of_idle ht hb) h hb
    exact ⟨1, by decide, t, run_succ_of_step hstep 0, hdone⟩
  | true =>
    have ha : nextAgent s = .engine := by simp [nextAgent, ht, hb]
    obtain ⟨u, hu, -⟩ := step_effect s
    obtain ⟨hops, hturns⟩ := step_engine_world hu ha
    have hbu : u.busy = false := step_engine_idle hs hu ha
    have hau : nextAgent u = .host := nextAgent_of_idle (by rw [hturns, ht]; rfl) hbu
    obtain ⟨t, hstep, hdone⟩ := step_poll_of_idle hau (hops.trans h) hbu
    exact ⟨2, le_rfl, t, (run_succ_of_step hu 1).trans (run_succ_of_step hstep 0), hdone⟩

/-- A listed turn either ends the `poll` or leaves it, with one turn fewer. -/
theorem step_poll (h : s.hostOps = .poll :: rest) : ∃ t, step s = .next t ∧
    (PollDone rest t ∨ (t.hostOps = .poll :: rest ∧ t.turns = s.turns.tail)) := by
  cases ha : nextAgent s with
  | engine =>
    obtain ⟨t, ht, -⟩ := step_effect s
    obtain ⟨hops, hturns⟩ := step_engine_world ht ha
    exact ⟨t, ht, .inr ⟨hops.trans h, hturns⟩⟩
  | host =>
    cases hb : s.busy with
    | true => exact ⟨_, step_of_host ha, .inr (hostMove_poll_of_busy h hb)⟩
    | false =>
      obtain ⟨t, ht, hdone⟩ := step_poll_of_idle ha h hb
      exact ⟨t, ht, .inl hdone⟩

/-- Each listed turn ends the `poll` or is used up, and then two steps are enough (R93, R239). -/
theorem run_poll (s : State) (hs : s.Inv) (h : s.hostOps = .poll :: rest) :
    ∃ k ≤ s.turns.length + 2, ∃ t, core.run k s = .next t ∧ PollDone rest t := by
  induction hturns : s.turns generalizing s with
  | nil => exact run_poll_of_no_turns hs h hturns
  | cons agent turns ih =>
    obtain ⟨u, hu, hdone | ⟨hops, htail⟩⟩ := step_poll h
    · exact ⟨1, by omega, u, run_succ_of_step hu 0, hdone⟩
    · obtain ⟨k, hk, t, hrun, hdone⟩ :=
        ih u ((step_cases hu).inv hs) hops (by rw [htail, hturns]; rfl)
      exact ⟨k + 1, by rw [List.length_cons]; omega, t, (run_succ_of_step hu k).trans hrun, hdone⟩

/-! `load` (R91). -/

/-- The first `n` words that `load <bytes>` writes, as bytes: the string, and zeros after it. -/
def loadBytes (bs : List Byte) (n : Nat) : List Byte := (List.range (4 * n)).map (byteOrZero bs)

@[simp] theorem length_loadBytes (bs : List Byte) (n : Nat) : (loadBytes bs n).length = 4 * n := by
  simp [loadBytes]

theorem getD_loadBytes (bs : List Byte) {n j : Nat} (hj : j < 4 * n) :
    (loadBytes bs n).getD j 0#8 = byteOrZero bs j := by
  simp [loadBytes, hj]

theorem loadBytes_succ (bs : List Byte) (n : Nat) :
    loadBytes bs (n + 1) = loadBytes bs n ++ wordBytes (inputWord bs n) := by
  simp [loadBytes, inputWord, Nat.mul_succ, List.range_succ]

/-- The string comes first. -/
theorem take_loadBytes {bs : List Byte} {n : Nat} (hn : bs.length ≤ 4 * n) :
    (loadBytes bs n).take bs.length = bs := by
  apply List.ext_getElem
  · simpa using hn
  · intro j h1 h2
    simp [loadBytes, byteOrZero, h2]

/-- Storing one string after another is storing the two as one. -/
theorem Memory.store_append (m : Memory) (addr : Nat) (bs cs : List Byte) :
    m.store addr (bs ++ cs) = (m.store addr bs).store (addr + bs.length) cs := by
  induction bs generalizing m addr with
  | nil => rfl
  | cons b bs ih => simp [Memory.store, ih, Nat.add_assoc, Nat.add_comm]

/-- The stored words hold the string. -/
theorem Memory.load_store_loadBytes {m : Memory} {bs : List Byte} {n addr : Nat} (hm : Memory.wf m)
    (hn : bs.length ≤ 4 * n) : (m.store addr (loadBytes bs n)).load addr bs.length = bs := by
  have hall : (m.store addr (loadBytes bs n)).load addr (4 * n) = loadBytes bs n := by
    simpa using Memory.load_store m addr (loadBytes bs n) hm
  rw [← Memory.take_load _ addr hn, hall, take_loadBytes hn]

theorem popTurn_of_no_turns (ht : s.turns = []) : s.popTurn = s := by
  cases s
  simp_all [State.popTurn]

/-- With no turn listed an idle block's step is the host's write. -/
theorem step_wr_of_idle {a : PortAddr} {v : Word} (ht : s.turns = []) (hb : s.busy = false)
    (h : s.hostOps = .wr a v :: rest) : step s = .next (memWrite { s with hostOps := rest } a v) := by
  rw [step_of_host (nextAgent_of_idle ht hb), popTurn_of_no_turns ht, hostMove_wr h]

/-- The state after the first `n` word writes of `load <bytes>`, with the host at `rest`. -/
def State.withLoadedWords (s : State) (bs : List Byte) (n : Nat) (rest : List HostOp) : State :=
  { s with mem := s.mem.store ibufBase (loadBytes bs n), hostOps := rest }

/-- The write of word `n` appends its bytes to those stored. -/
theorem step_loadWord (bs : List Byte) {n : Nat} (hn : n ≤ 65) (ht : s.turns = [])
    (hb : s.busy = false) :
    step (s.withLoadedWords bs n (.wr (portAddr (ibufBase + 4 * n)) (inputWord bs n) :: rest)) =
      .next (s.withLoadedWords bs (n + 1) rest) := by
  have hidle : (s.withLoadedWords bs n rest).busy = false := hb
  refine (step_wr_of_idle (s := s.withLoadedWords bs n _) ht hb rfl).trans ?_
  refine congrArg Host.Outcome.next ((memWrite_ibufWord (s.withLoadedWords bs n rest) _ hn).trans ?_)
  rw [unlessBusy_of_idle hidle]
  simp [State.withLoadedWords, loadBytes_succ, Memory.store_append, Memory.storeWord]

theorem run_loadWords (bs : List Byte) {n : Nat} (hn : n ≤ 66) (ht : s.turns = [])
    (hb : s.busy = false)
    (h : s.hostOps =
      (List.range n).map (fun w => .wr (portAddr (ibufBase + 4 * w)) (inputWord bs w)) ++ rest) :
    core.run n s = .next (s.withLoadedWords bs n rest) := by
  induction n generalizing rest with
  | zero =>
    obtain rfl : s.hostOps = rest := h
    rfl
  | succ n ih =>
    rw [List.range_succ, List.map_append, List.append_assoc] at h
    exact run_succ_of_run (ih (by omega) h) (step_loadWord bs (by omega) ht hb)

/-- ILEN holds any count below 512 (R24). -/
theorem extractLsb'_ofNat_of_lt {n : Nat} (hn : n < 512) :
    (BitVec.ofNat 32 n).extractLsb' 0 9 = BitVec.ofNat 9 n := by
  rw [extractLsb'_eq_ofNat_mod, BitVec.toNat_ofNat]
  congr 1
  omega

/-- `load <bytes>`: the words, then ILEN. -/
theorem run_loadOps {bs : List Byte} (hlen : bs.length ≤ 264) (ht : s.turns = [])
    (hb : s.busy = false) (h : s.hostOps = loadOps bs ++ rest) :
    core.run (loadOps bs).length s = .next { s.withLoadedWords bs (wordCount bs.length) rest with
      ilen := BitVec.ofNat 9 bs.length } := by
  have hcount : wordCount bs.length ≤ 66 := by
    unfold wordCount
    omega
  have hops : (loadOps bs).length = wordCount bs.length + 1 := by simp [loadOps]
  rw [hops]
  rw [loadOps, List.append_assoc] at h
  refine run_succ_of_run (run_loadWords bs hcount ht hb h) ?_
  refine (step_wr_of_idle (s := s.withLoadedWords bs _ _) ht hb rfl).trans ?_
  refine congrArg Host.Outcome.next
    ((unlessBusy_of_idle (s := s.withLoadedWords bs _ rest) hb).trans ?_)
  rw [extractLsb'_ofNat_of_lt (by omega)]
  rfl

end Sys2Proof.Machine
end

section
/-! SUPPORT. The obligations on the encoding of commands, the assembler and the host's pseudo-operations
(spec 30_encoding.md), from the laws above. -/

namespace Sys2Proof.Proofs

open Sys2Proof.Machine

/-- Settles O1: a command and a legal word have the same OP and IMM, and these make up the word. -/
theorem decodeAndEncodeAgree : Obligations.DecodeAndEncodeAgree :=
  ⟨decode_encode, fun _ _ => encode_of_decode⟩

/-- Settles O2: both sides of each row are facts about the two fields of the word. -/
theorem everyWordMatchesAtMostOneRow : Obligations.EveryWordMatchesAtMostOneRow := by
  refine fun w => ⟨fun op hop => ?_, fun op hop => ?_, fun r₁ hr₁ r₂ hr₂ h₁ h₂ => ?_,
    commandWordWF_iff⟩
  · rw [and_opMask_eq_iff, exists_decode_opcode_iff, exists_decode_iff]
    exact ⟨fun h => ⟨h, .inl (h ▸ hop)⟩, fun h => h.1⟩
  · rw [eq_setWidth_iff, exists_decode_opcode_iff, exists_decode_iff]
    have hnotI : op.toNat ∉ [1, 2, 3, 4] := by
      simp only [List.mem_cons, List.not_mem_nil, or_false] at hop ⊢
      omega
    exact and_congr_right fun h => by simp only [h, hop, hnotI, true_and, false_or]
  · exact opcodeRows_eq_of_opcode r₁ hr₁ r₂ hr₂ <|
      (value_and_opMask_of_matches hr₁ h₁).trans (value_and_opMask_of_matches hr₂ h₂).symm

/-- Settles O3: the premise on the word excludes both forms of legal word (`exists_decode_iff`). -/
theorem illegalWordsRaiseIllegalCommand : Obligations.IllegalWordsRaiseIllegalCommand := by
  refine ⟨fun op => exists_opcodeOf_iff, fun s w hw => ?_⟩
  have hillegal : ∀ i, decode w ≠ .ok i := by
    intro i hi
    have hlt : (opField w).toNat < 0x0D := opField_lt_of_decode hi
    have hform := exists_decode_iff.mp ⟨i, hi⟩
    obtain hge | ⟨hnotI, hne⟩ := hw
    · omega
    · exact hform.elim hnotI fun hZ => hne hZ.2
  refine ⟨hillegal, fun hb => ?_, fun hp hd hcmd => ?_⟩
  · rw [memWrite_cmd_of_idle hb]
    exact ⟨rfl, (State.busy_eq_true_iff _).mpr (.inr rfl)⟩
  · subst hcmd
    exact ⟨(engineStep_ready hp hd).trans (commandStep_of_illegal hillegal),
      (State.busy_eq_false_iff _).mpr ⟨hp, rfl⟩⟩

/-- Settles O4: the legal words are those of their commands, the other two are evaluated. -/
theorem specWordsDecodeAsWritten : Obligations.SpecWordsDecodeAsWritten :=
  ⟨decode_encode .nop, decode_encode (.rdfwd 0xFFFFFF#24), decode_encode (.rdinv 0x123457#24),
    decode_encode (.getcode 0x48#8 0x65#8 0x6C#8), decode_encode (.getorig 0xBF2E30#24),
    decode_encode .encblk, decode_encode .xorks, decode_encode .frame, decode_encode .decrypt,
    by decide, by decide⟩

/-- Settles O5, kind by kind of mnemonic. -/
theorem assemblerAcceptsExactlyWellFormedLines :
    Obligations.AssemblerAcceptsExactlyWellFormedLines := by
  refine ⟨fun _ => exists_assemble_iff_wf, by decide, fun n hn => ?_, fun x hx y hy z hz => ?_⟩
  · exact ⟨assemble_of_immCommand rfl hn, assemble_of_immCommand rfl hn,
      assemble_of_immCommand rfl hn⟩
  · refine ⟨.getcode (BitVec.ofNat 8 x) (BitVec.ofNat 8 y) (BitVec.ofNat 8 z), ?_, ?_⟩
    · rw [assemble_getcode]
      simp only [assembleGetcode, hx, hy, hz, and_self, if_true]
    · simp only [encode, opcodeOf, immOf, toNat_commandWord, toNat_join24, BitVec.toNat_ofNat]
      omega

/-- Settles O18, by induction on the listed turns. -/
theorem pollEnds : Obligations.PollEnds :=
  fun s _ hs h => run_poll s hs h

/-- Settles O25: the run's memory is one store of the bytes and the zeros after them. -/
theorem loadLeavesTheBytesAsInput : Obligations.LoadLeavesTheBytesAsInput := by
  intro s bs rest hm hb ht h hlen
  have hfit : bs.length ≤ 4 * wordCount bs.length := by
    unfold wordCount
    omega
  have hilen : (BitVec.ofNat 9 bs.length).toNat = bs.length :=
    (BitVec.toNat_ofNat _ _).trans (Nat.mod_eq_of_lt (by omega))
  refine ⟨_, run_loadOps hlen ht hb h, ?_, hilen, fun j hle hlt => ?_, fun a ha => ?_,
    Memory.store_wf _ _ _ hm, rfl⟩
  · exact (congrArg (Memory.load _ ibufBase) hilen).trans (Memory.load_store_loadBytes hm hfit)
  · have hread := Memory.read_store_inside s.mem ibufBase j (loadBytes bs (wordCount bs.length)) hm
      (by simpa using hlt)
    exact hread.trans ((getD_loadBytes bs hlt).trans (List.getD_eq_default _ _ hle))
  · exact Memory.read_store_other _ _ _ _ hm (by simpa using ha)

end Sys2Proof.Proofs
end

section
/-! SUPPORT. The substitution tables and the block coder (spec 40_cube.md): block and group indices as
numbers, what each command leaves, and the block strings group by group. -/

namespace Sys2Proof

open Sys2Proof.Machine

variable {w : Word} {i : Instr}

/-! Command words by their fields (R80, R81). -/

/-- A word with the opcode and the operand of a command decodes to it. -/
theorem decode_of_fields (hop : opField w = opcodeOf i) (himm : immField w = immOf i) :
    decode w = .ok i := by
  rw [← commandWord_fields w, hop, himm]
  exact decode_encode i

/-- A byte of IMM is the byte of the word eight bits higher. -/
theorem extractLsb'_immField (w : Word) {k : Nat} (hk : k + 8 ≤ 24) :
    (immField w).extractLsb' k 8 = w.extractLsb' (8 + k) 8 := by
  ext j hj
  have hin : k + j < 24 := by omega
  simp [immField, hin, Nat.add_assoc]

/-- IMM as the three bytes of the word above the opcode. -/
theorem immField_eq_join24 (w : Word) :
    immField w = join24 (w.extractLsb' 24 8) (w.extractLsb' 16 8) (w.extractLsb' 8 8) := by
  rw [← extractLsb'_immField w (k := 0) (by decide), ← extractLsb'_immField w (k := 8) (by decide),
    ← extractLsb'_immField w (k := 16) (by decide)]
  exact (join24_bytes _).symm

/-! Three bytes as a number (R11, R102). -/

theorem join24_eq_ofNat (hi mid lo : Byte) :
    join24 hi mid lo = BitVec.ofNat 24 (hi.toNat * 65536 + mid.toNat * 256 + lo.toNat) := by
  rw [← toNat_join24, BitVec.ofNat_toNat, BitVec.setWidth_eq]

theorem toNat_byteLo (v : Word24) : (byteLo v).toNat = v.toNat % 256 := by
  simp [byteLo]

theorem toNat_byteMid (v : Word24) : (byteMid v).toNat = v.toNat / 256 % 256 := by
  simp [byteMid, Nat.shiftRight_eq_div_pow]

theorem toNat_byteHi (v : Word24) : (byteHi v).toNat = v.toNat / 65536 := by
  have hv := v.isLt
  simp only [byteHi, BitVec.extractLsb'_toNat, Nat.shiftRight_eq_div_pow]
  omega

theorem bswap24_eq_ofNat (v : Word24) :
    bswap24 v = BitVec.ofNat 24
      (v.toNat % 256 * 65536 + v.toNat / 256 % 256 * 256 + v.toNat / 65536) := by
  rw [bswap24, join24_eq_ofNat, toNat_byteLo, toNat_byteMid, toNat_byteHi]

namespace Machine

variable {s : State}

/-! What the commands leave (R110 to R115). -/

theorem State.perm_of_testPerm (h : s.tables = .testPerm) : s.perm = testPerm := by
  simp only [State.perm, h]

theorem exec_rdfwd (i : Word24) (s : State) :
    exec (.rdfwd i) s = .next { s with result := s.perm i, err := .ok, pend := false } := rfl

theorem exec_rdinv (c : Word24) (s : State) :
    exec (.rdinv c) s = .next { s with result := s.perm.symm c, err := .ok, pend := false } := rfl

/-- The RESULT register reads the 24-bit value with zeros above it (R26). -/
theorem toNat_memRead_result (s : State) : (memRead s (portAddr 0x014)).toNat = s.result.toNat :=
  BitVec.toNat_setWidth_of_le (by decide)

theorem exec_getcode_commitsString (x y z : Byte) (hm : Memory.wf s.mem) :
    ∃ t, exec (.getcode x y z) s = .next t ∧
      CommitsString (getCode s.perm x y z) (s.perm (blockIndex x y z)) s t :=
  ⟨_, rfl, commitOk_commitsString _ (some _) s hm (by simp [bufSize])⟩

theorem exec_getorig_commitsString (g : Word24) (hm : Memory.wf s.mem) :
    ∃ t, exec (.getorig g) s = .next t ∧
      CommitsString (getOriginal s.perm g) (s.perm.symm (bswap24 g)) s t :=
  ⟨_, rfl, commitOk_commitsString _ (some _) s hm (by simp [bufSize])⟩

theorem exec_encblk_of_blocks (hlen : s.ilen.toNat ≤ 264) (h3 : s.ilen.toNat % 3 = 0) :
    exec .encblk s = .next (commitOk (some (encBlocks s.perm s.input)) none s) := by
  simp only [exec, execEncblk, withInput_of_le (limit := maxInput) hlen, encblkBody, length_input,
    if_pos h3]

theorem exec_encblk_of_bad_length (h : 264 < s.ilen.toNat ∨ s.ilen.toNat % 3 ≠ 0) :
    exec .encblk s = .next (raiseErr .badArgument s) := by
  by_cases hlen : 264 < s.ilen.toNat
  · simp only [exec, execEncblk, withInput_of_lt (limit := maxInput) hlen]
  · have h3 : s.ilen.toNat % 3 ≠ 0 := h.resolve_left hlen
    simp only [exec, execEncblk, withInput_of_le (limit := maxInput) (Nat.le_of_not_lt hlen),
      encblkBody, length_input, if_neg h3]

theorem exec_decblk_of_le (hlen : s.ilen.toNat ≤ 264) :
    exec .decblk s =
      .next (commitOk (some (decBlocks s.perm (s.ilen.toNat / 3) s.input)) none s) := by
  simp only [exec, execDecblk, withInput_of_le (limit := maxInput) hlen, decAll, length_input]

theorem exec_decblk_of_lt (hlen : 264 < s.ilen.toNat) :
    exec .decblk s = .next (raiseErr .badArgument s) := by
  simp only [exec, execDecblk, withInput_of_lt (limit := maxInput) hlen]

/-! One block (R105). -/

theorem decGroup_getCode (p : Perm24) (b0 b1 b2 : Byte) :
    ∃ h0 h1 h2, getCode p b0 b1 b2 = [h0, h1, h2] ∧ decGroup p h0 h1 h2 = [b0, b1, b2] :=
  ⟨_, _, _, rfl, by simp [decGroup, getOriginal]⟩

/-- Encoding a block is decoding it by the inverse permutation: both read the first byte as the lowest. -/
theorem getCode_eq_decGroup_symm (p : Perm24) (b0 b1 b2 : Byte) :
    getCode p b0 b1 b2 = decGroup p.symm b0 b1 b2 := by
  rw [decGroup, getOriginal, bswap24_groupInt, Equiv.symm_symm]
  rfl

/-- The other way round is the same fact of the inverse permutation. -/
theorem getCode_decGroup (p : Perm24) (h0 h1 h2 : Byte) :
    ∃ b0 b1 b2, decGroup p h0 h1 h2 = [b0, b1, b2] ∧ getCode p b0 b1 b2 = [h0, h1, h2] := by
  simpa only [getCode_eq_decGroup_symm, Equiv.symm_symm] using decGroup_getCode p.symm h0 h1 h2

/-! Strings of blocks (R106, R107). -/

/-- Group `q + 1` of a string is group `q` of what follows its first group. -/
theorem take_drop_succ_group {g rest : List Byte} (hg : g.length = 3) (q : Nat) :
    ((g ++ rest).drop (3 * (q + 1))).take 3 = (rest.drop (3 * q)).take 3 := by
  rw [show 3 * (q + 1) = g.length + 3 * q by omega, List.drop_length_add_append]

theorem length_lt_three {s : List Byte} (h : ∀ a b c rest, s ≠ a :: b :: c :: rest) :
    s.length < 3 := by
  rcases s with - | ⟨a, - | ⟨b, - | ⟨c, rest⟩⟩⟩
  · simp
  · simp
  · simp
  · exact absurd rfl (h a b c rest)

/-- Where DecBlocks stops there is no group left to decode. -/
theorem min_groups_eq_zero {n : Nat} {s : List Byte}
    (h : ∀ m a b c rest, n = m + 1 → s ≠ a :: b :: c :: rest) : min n (s.length / 3) = 0 := by
  cases n with
  | zero => exact Nat.zero_min _
  | succ m =>
    have hlen : s.length < 3 := length_lt_three fun a b c rest => h m a b c rest rfl
    rw [Nat.div_eq_of_lt hlen, Nat.min_zero]

theorem decBlocks_eq_nil (p : Perm24) {n : Nat} {s : List Byte} (h : min n (s.length / 3) = 0) :
    decBlocks p n s = [] :=
  List.eq_nil_of_length_eq_zero (by rw [length_decBlocks, h])

theorem group_decBlocks (p : Perm24) (n : Nat) (s : List Byte) {q : Nat}
    (hq : q < min n (s.length / 3)) :
    ((decBlocks p n s).drop (3 * q)).take 3 =
      decGroup p (s.getD (3 * q) 0#8) (s.getD (3 * q + 1) 0#8) (s.getD (3 * q + 2) 0#8) := by
  induction n, s using decBlocks.induct generalizing q with
  | case1 n h0 h1 h2 rest ih =>
    cases q with
    | zero => simp [decBlocks, List.take_append]
    | succ q =>
      rw [decBlocks, take_drop_succ_group rfl, ih (by simp only [List.length_cons] at hq; omega)]
      rfl
  | case2 n s hs =>
    have hzero : min n (s.length / 3) = 0 := min_groups_eq_zero hs
    omega

/-- Encoding a string is decoding it by the inverse permutation. -/
theorem encBlocks_eq_decAll_symm (p : Perm24) (s : List Byte) :
    encBlocks p s = decAll p.symm s := by
  induction s using encBlocks.induct with
  | case1 b0 b1 b2 rest ih =>
    have hgroups : (b0 :: b1 :: b2 :: rest).length / 3 = rest.length / 3 + 1 :=
      Nat.add_div_right rest.length (Nat.succ_pos 2)
    rw [encBlocks, ih, getCode_eq_decGroup_symm, decAll, decAll, hgroups, decBlocks]
  | case2 s hs =>
    have hgroups : s.length / 3 = 0 := Nat.div_eq_of_lt (length_lt_three hs)
    rw [decAll, decBlocks_eq_nil _ (by rw [hgroups, Nat.zero_min])]
    exact List.eq_nil_of_length_eq_zero (by rw [length_encBlocks, hgroups])

theorem group_encBlocks (p : Perm24) (s : List Byte) {q : Nat} (hq : q < s.length / 3) :
    ((encBlocks p s).drop (3 * q)).take 3 =
      getCode p (s.getD (3 * q) 0#8) (s.getD (3 * q + 1) 0#8) (s.getD (3 * q + 2) 0#8) := by
  rw [encBlocks_eq_decAll_symm, decAll, getCode_eq_decGroup_symm]
  exact group_decBlocks p.symm _ s (by rwa [min_self])

/-- The bytes after the last complete group are never read (R107). -/
theorem decBlocks_take_groups (p : Perm24) (n : Nat) (s : List Byte) :
    decBlocks p n (s.take (3 * (s.length / 3))) = decBlocks p n s := by
  induction n, s using decBlocks.induct with
  | case1 n h0 h1 h2 rest ih =>
    rw [show 3 * ((h0 :: h1 :: h2 :: rest).length / 3) = 3 * (rest.length / 3) + 3 by simp; omega]
    simp only [List.take_succ_cons, decBlocks, ih]
  | case2 n s hs =>
    have hzero : min n (s.length / 3) = 0 := min_groups_eq_zero hs
    rw [decBlocks_eq_nil p hzero, decBlocks_eq_nil p (by simp; omega)]

end Machine

end Sys2Proof
end

section
/-! SUPPORT. The obligations on the substitution tables and the block coder (spec 40_cube.md), from the
laws above. -/

namespace Sys2Proof.Proofs

open Sys2Proof.Machine

/-- Settles O29: the code looked up is that of the block's index, as a number. -/
theorem getcodeEncodesOneBlock : Obligations.GetcodeEncodesOneBlock := by
  refine ⟨fun w hop => decode_of_fields hop (immField_eq_join24 w), fun s x y z hm => ?_⟩
  obtain ⟨t, ht, hc⟩ := exec_getcode_commitsString x y z hm
  exact ⟨t, ht, _, congrArg s.perm (join24_eq_ofNat z y x), hc⟩

/-- Settles O30: the byte swap of the operand, as a number. -/
theorem getorigDecodesOneBlock : Obligations.GetorigDecodesOneBlock := by
  refine ⟨fun w hop => decode_of_fields hop rfl, fun s g hm => ?_⟩
  obtain ⟨t, ht, hc⟩ := exec_getorig_commitsString g hm
  exact ⟨t, ht, _, congrArg s.perm.symm (bswap24_eq_ofNat g), hc⟩

/-- Settles O31: an input of complete blocks encodes to as many bytes, which fit OBUF. -/
theorem encblkEncodesTheInput : Obligations.EncblkEncodesTheInput := by
  refine ⟨decode_encode .encblk, fun s hm => ⟨fun hlen h3 => ?_, exec_encblk_of_bad_length⟩⟩
  have hout : (encBlocks s.perm s.input).length = s.ilen.toNat := by
    rw [length_encBlocks, length_input]
    omega
  have hc := commitOk_commitsString _ none s hm (hout.trans_le hlen)
  exact ⟨_, exec_encblk_of_blocks hlen h3, hc, BitVec.eq_of_toNat_eq (hc.olen.trans hout)⟩

/-- Settles O32: the complete groups of an input that fits IBUF decode to no more bytes than it has. -/
theorem decblkDecodesTheInput : Obligations.DecblkDecodesTheInput := by
  refine ⟨decode_encode .decblk, fun s hm => ⟨fun hlen => ?_, exec_decblk_of_lt⟩⟩
  have hout : (decBlocks s.perm (s.ilen.toNat / 3) s.input).length = 3 * (s.ilen.toNat / 3) := by
    rw [length_decBlocks, length_input, min_self]
  have hc := commitOk_commitsString _ none s hm (hout.trans_le (by unfold bufSize; omega))
  exact ⟨_, exec_decblk_of_le hlen, hc, hc.olen.trans hout⟩

/-- Settles O44: the permutation and its inverse cancel, and so do the byte orders around them. -/
theorem blockRoundTrip : Obligations.BlockRoundTrip :=
  ⟨decGroup_getCode, getCode_decGroup, fun s i c => ⟨s.inv_fwd i, s.fwd_inv c⟩⟩

/-- Settles O45: DecBlocks by induction on its groups, and EncBlocks as DecBlocks by the inverse
permutation. -/
theorem blockStringsGroupByGroup : Obligations.BlockStringsGroupByGroup := by
  refine ⟨fun p s h3 => ⟨?_, fun q => group_encBlocks p s⟩, fun p s n => ⟨length_decBlocks p n s,
    fun q => group_decBlocks p n s, rfl, fun s' htake hlen => ?_⟩⟩
  · rw [length_encBlocks]
    omega
  · rw [← decBlocks_take_groups p n s', hlen, htake, decBlocks_take_groups]

/-- Settles O27: the next state is written out, and the examples are TESTPERM's at the first and the last
index. -/
theorem rdfwdReadsTheForwardTable : Obligations.RdfwdReadsTheForwardTable := by
  refine ⟨fun w hop => decode_of_fields hop rfl,
    fun s i => ⟨_, exec_rdfwd i s, rfl, toNat_memRead_result _⟩, fun s hs => ?_⟩
  rw [exec_rdfwd, exec_rdfwd, State.perm_of_testPerm hs]
  exact ⟨rfl, rfl⟩

/-- Settles O28: RDFWD leaves the tables, so RDINV after it is by the same permutation. -/
theorem rdinvReadsTheInverseTable : Obligations.RdinvReadsTheInverseTable := by
  refine ⟨fun w hop => decode_of_fields hop rfl, fun s c => exec_rdinv c s, fun s t i h => ?_,
    fun s hs => ?_⟩
  · obtain rfl := Host.Outcome.next.inj ((exec_rdfwd i s).symm.trans h)
    rw [exec_rdinv]
    change Host.Outcome.next
      { s with result := s.perm.symm (s.perm i), err := .ok, pend := false } = _
    rw [Equiv.symm_apply_apply]
  · rw [exec_rdinv, exec_rdinv, State.perm_of_testPerm hs]
    exact ⟨rfl, rfl⟩

end Sys2Proof.Proofs
end

section
/-! SUPPORT. The keystream and the source's StreamXOR on hex strings (spec 41_stream_xor.md): the XOR of a
string byte by byte, hex digits as bytes, and the source's chunks as 8-byte chunks. -/

namespace Sys2Proof.Machine

variable {s : State}

/-! What XORKS leaves (R143). -/

theorem exec_xorks_of_le (hlen : s.ilen.toNat ≤ 264) :
    exec .xorks s = .next (commitOk (some (xorStream s.key s.input)) none s) := by
  simp only [exec, execXorks, withInput_of_le (limit := maxInput) hlen]

theorem exec_xorks_of_lt (hlen : 264 < s.ilen.toNat) :
    exec .xorks s = .next (raiseErr .badArgument s) := by
  simp only [exec, execXorks, withInput_of_lt (limit := maxInput) hlen]

/-! The keystream (R140). -/

theorem toNat_keyByte (key : Key) (j : Nat) :
    (keyByte key j).toNat = key.toNat / 2 ^ (56 - 8 * j) % 256 := by
  simp [keyByte, Nat.shiftRight_eq_div_pow]

/-- A key's byte as two of its 16 hexadecimal digits. -/
theorem toNat_keyByte_eq_div_pow_sixteen (key : Key) (j : Nat) :
    (keyByte key j).toNat = key.toNat / 16 ^ (14 - 2 * j) % 256 := by
  have hpow : 2 ^ (56 - 8 * j) = 16 ^ (14 - 2 * j) := by
    rw [show 56 - 8 * j = 4 * (14 - 2 * j) by omega, Nat.pow_mul]
  rw [toNat_keyByte, hpow]

theorem keyByte_xor (v key : Key) (j : Nat) :
    keyByte (v ^^^ key) j = keyByte v j ^^^ keyByte key j :=
  BitVec.extractLsb'_xor

/-- The eight bytes of a 64-bit value, the highest first (R140). -/
def keyBytes (v : Key) : List Byte := (List.range 8).map (keyByte v)

@[simp] theorem length_keyBytes (v : Key) : (keyBytes v).length = 8 := rfl

/-! XOR with the keystream (R141, R142). -/

theorem getD_xorFrom (key : Key) (i : Nat) {j : Nat} {bs : List Byte} (hj : j < bs.length) :
    (xorFrom key i bs).getD j 0#8 = bs.getD j 0#8 ^^^ keyByte key ((i + j) % 8) := by
  induction bs generalizing i j with
  | nil => exact absurd hj (Nat.not_lt_zero j)
  | cons b rest ih =>
    cases j with
    | zero => rfl
    | succ j =>
      have hrest := ih (i + 1) (Nat.lt_of_succ_lt_succ hj)
      rwa [Nat.add_right_comm] at hrest

theorem xorFrom_xorFrom (key : Key) (i : Nat) (bs : List Byte) :
    xorFrom key i (xorFrom key i bs) = bs := by
  induction bs generalizing i with
  | nil => rfl
  | cons b rest ih => simp [xorFrom, ih]

theorem xorFrom_append (key : Key) (i : Nat) (bs cs : List Byte) :
    xorFrom key i (bs ++ cs) = xorFrom key i bs ++ xorFrom key (i + bs.length) cs := by
  induction bs generalizing i with
  | nil => rfl
  | cons b rest ih => simp [xorFrom, ih, Nat.add_assoc, Nat.add_comm 1]

/-- The keystream has period 8 (R140). -/
theorem xorFrom_add_eight (key : Key) (i : Nat) (bs : List Byte) :
    xorFrom key (i + 8) bs = xorFrom key i bs := by
  induction bs generalizing i with
  | nil => rfl
  | cons b rest ih => rw [xorFrom, xorFrom, Nat.add_mod_right, Nat.add_right_comm, ih]

/-- On one chunk the keystream is the XOR with the key as a 64-bit number (R144). -/
theorem xorFrom_keyBytes (key v : Key) : xorFrom key 0 (keyBytes v) = keyBytes (v ^^^ key) := by
  simp [keyBytes, xorFrom, List.range_succ, keyByte_xor]

theorem padTo8_of_multiple {bs : List Byte} (h : bs.length % 8 = 0) : padTo8 bs = bs := by
  have hceil : ceil8 bs.length - bs.length = 0 := by
    unfold ceil8
    omega
  rw [padTo8, hceil]
  exact List.append_nil bs

/-- The second application finds nothing to pad. -/
theorem xorStream_xorStream (key : Key) (bs : List Byte) :
    xorStream key (xorStream key bs) = padTo8 bs := by
  have hmul : (xorStream key bs).length % 8 = 0 := by
    rw [length_xorStream]
    exact Nat.mul_mod_right 8 _
  rw [xorStream, padTo8_of_multiple hmul, xorStream, xorFrom_xorFrom]

/-! Hexadecimal digits (R190, R192). -/

theorem lt_of_hexval {c : Char} {d : Nat} (h : hexval c = some d) : d < 16 := by
  simp only [hexval] at h
  split_ifs at h with hdigit hlower hupper
  · obtain rfl := Option.some.inj h
    omega
  · obtain rfl := Option.some.inj h
    omega
  · obtain rfl := Option.some.inj h
    omega

theorem hexval_hexChar : ∀ d < 16, hexval (hexChar d) = some d := by decide

theorem hexvals_cons (c : Char) (rest : List Char) :
    hexvals (c :: rest) = (hexval c).bind fun d => (hexvals rest).map (d :: ·) := by
  rw [hexvals]
  cases hexval c with
  | none => rfl
  | some d => cases hexvals rest <;> rfl

/-- A string has digit values when each of its characters has one. -/
theorem hexvals_eq_some_iff {t : List Char} {ds : List Nat} :
    hexvals t = some ds ↔ t.map hexval = ds.map some := by
  induction t generalizing ds with
  | nil => cases ds <;> simp [hexvals]
  | cons c rest ih =>
    simp only [hexvals_cons, Option.bind_eq_some_iff, Option.map_eq_some_iff]
    cases ds with
    | nil => simp
    | cons d ds => simp [ih]

theorem length_of_hexvals {t : List Char} {ds : List Nat} (h : hexvals t = some ds) :
    ds.length = t.length := by
  simpa using (congrArg List.length (hexvals_eq_some_iff.mp h)).symm

theorem lt_of_mem_hexvals {t : List Char} {ds : List Nat} (h : hexvals t = some ds) :
    ∀ d ∈ ds, d < 16 := by
  intro d hd
  have hmem : some d ∈ t.map hexval := by
    rw [hexvals_eq_some_iff.mp h]
    exact List.mem_map_of_mem hd
  obtain ⟨c, -, hc⟩ := List.mem_map.mp hmem
  exact lt_of_hexval hc

theorem hexvals_take {t : List Char} {ds : List Nat} (h : hexvals t = some ds) (n : Nat) :
    hexvals (t.take n) = some (ds.take n) := by
  rw [hexvals_eq_some_iff, List.map_take, List.map_take, hexvals_eq_some_iff.mp h]

theorem hexvals_drop {t : List Char} {ds : List Nat} (h : hexvals t = some ds) (n : Nat) :
    hexvals (t.drop n) = some (ds.drop n) := by
  rw [hexvals_eq_some_iff, List.map_drop, List.map_drop, hexvals_eq_some_iff.mp h]

/-- Characters '0' at the end are digits 0 at the end. -/
theorem hexvals_append_zeros {t : List Char} {ds : List Nat} (h : hexvals t = some ds) (n : Nat) :
    hexvals (t ++ List.replicate n '0') = some (ds ++ List.replicate n 0) := by
  have hzero : hexval '0' = some 0 := by decide
  rw [hexvals_eq_some_iff, List.map_append, List.map_append, hexvals_eq_some_iff.mp h,
    List.map_replicate, List.map_replicate, hzero]

/-- The two digits of each byte, the high one first (R192). -/
def hexDigits (bs : List Byte) : List Nat := bs.flatMap fun b => [b.toNat / 16, b.toNat % 16]

theorem hexvals_hex (bs : List Byte) : hexvals (hex bs) = some (hexDigits bs) := by
  rw [hexvals_eq_some_iff, hex, hexDigits, List.map_flatMap, List.map_flatMap]
  congr 1
  funext b
  have hb := b.isLt
  simp [hex2, hexval_hexChar (b.toNat / 16) (by omega), hexval_hexChar (b.toNat % 16) (by omega)]

theorem evenDigits_hexDigits (bs : List Byte) : evenDigits (hexDigits bs) = hexDigits bs :=
  if_pos (by simp [hexDigits, List.length_flatMap])

theorem hex_append (bs cs : List Byte) : hex (bs ++ cs) = hex bs ++ hex cs :=
  List.flatMap_append

/-! Digit pairs as bytes (R193). -/

theorem pairBytes_hexDigits (bs : List Byte) : pairBytes (hexDigits bs) = bs := by
  induction bs with
  | nil => rfl
  | cons b rest ih =>
    have hb : BitVec.ofNat 8 (16 * (b.toNat / 16) + b.toNat % 16) = b := by
      rw [Nat.div_add_mod, BitVec.ofNat_toNat, BitVec.setWidth_eq]
    exact congrArg₂ List.cons hb ih

theorem length_lt_two {ds : List Nat} (h : ∀ a b rest, ds ≠ a :: b :: rest) : ds.length < 2 := by
  rcases ds with - | ⟨a, - | ⟨b, rest⟩⟩
  · simp
  · simp
  · exact absurd rfl (h a b rest)

theorem pairBytes_of_lt_two {ds : List Nat} (h : ds.length < 2) : pairBytes ds = [] := by
  rcases ds with - | ⟨a, - | ⟨b, rest⟩⟩
  · simp [pairBytes]
  · simp [pairBytes]
  · exact absurd h (by simp)

@[simp] theorem length_pairBytes (ds : List Nat) : (pairBytes ds).length = ds.length / 2 := by
  induction ds using pairBytes.induct with
  | case1 h l rest ih =>
    simp only [pairBytes, List.length_cons, ih]
    omega
  | case2 ds hds =>
    have hlen : ds.length < 2 := length_lt_two hds
    rw [pairBytes_of_lt_two hlen, Nat.div_eq_of_lt hlen, List.length_nil]

theorem pairBytes_append {ds : List Nat} (es : List Nat) (hd : ds.length % 2 = 0) :
    pairBytes (ds ++ es) = pairBytes ds ++ pairBytes es := by
  induction ds using pairBytes.induct with
  | case1 h l rest ih =>
    have hrest : rest.length % 2 = 0 := by simpa [Nat.add_assoc] using hd
    simp [pairBytes, ih hrest]
  | case2 ds hds =>
    have hlen : ds.length < 2 := length_lt_two hds
    obtain rfl : ds = [] := List.eq_nil_of_length_eq_zero (by omega)
    rfl

theorem pairBytes_replicate_zero (n : Nat) : pairBytes (List.replicate (2 * n) 0) = zeros n := by
  induction n with
  | zero => rfl
  | succ n ih => exact congrArg (List.cons 0#8) ih

theorem evenDigits_eq_append_zeros (ds : List Nat) :
    evenDigits ds = ds ++ List.replicate (ds.length % 2) 0 := by
  unfold evenDigits
  split
  next h => simp [h]
  next h => simp [Nat.mod_two_ne_zero.mp h]

/-- Padding the digits to whole chunks is padding the bytes to whole chunks (R144). -/
theorem pairBytes_pad (ds : List Nat) :
    pairBytes (ds ++ List.replicate (16 * ((ds.length + 15) / 16) - ds.length) 0) =
      padTo8 (pairBytes (evenDigits ds)) := by
  have heven : (evenDigits ds).length = ds.length + ds.length % 2 := by
    simp [evenDigits_eq_append_zeros]
  have hcount : 16 * ((ds.length + 15) / 16) - ds.length = ds.length % 2 +
      2 * (ceil8 (pairBytes (evenDigits ds)).length - (pairBytes (evenDigits ds)).length) := by
    rw [length_pairBytes, heven]
    unfold ceil8
    omega
  rw [padTo8, ← pairBytes_replicate_zero, ← pairBytes_append _ (by omega), hcount,
    List.replicate_add, ← List.append_assoc, ← evenDigits_eq_append_zeros]

/-! Digits as one number (R190). -/

theorem digitsValue_concat (ds : List Nat) (d : Nat) :
    digitsValue (ds ++ [d]) = 16 * digitsValue ds + d := by
  simp [digitsValue]

theorem digitsValue_lt {ds : List Nat} (h : ∀ d ∈ ds, d < 16) : digitsValue ds < 16 ^ ds.length := by
  induction ds using List.reverseRecOn with
  | nil => exact Nat.one_pos
  | append_singleton ds d ih =>
    have hd : d < 16 := h d (by simp)
    have hds := ih fun e he => h e (by simp [he])
    rw [digitsValue_concat, List.length_append, List.length_singleton, Nat.pow_succ]
    omega

/-- Dividing by a power of 16 takes as many digits off the end. -/
theorem digitsValue_append_div (ds : List Nat) {es : List Nat} (h : ∀ e ∈ es, e < 16) :
    digitsValue (ds ++ es) / 16 ^ es.length = digitsValue ds := by
  induction es using List.reverseRecOn with
  | nil => simp
  | append_singleton es e ih =>
    have he : e < 16 := h e (by simp)
    have hdiv : (16 * digitsValue (ds ++ es) + e) / 16 = digitsValue (ds ++ es) := by omega
    rw [← List.append_assoc, digitsValue_concat, List.length_append, List.length_singleton,
      Nat.pow_succ', ← Nat.div_div_eq_div_mul, hdiv, ih fun d hd => h d (by simp [hd])]

/-- The byte at two digits is the number without the digits after them, mod 256. -/
theorem ofNat_digitsValue_div (pre : List Nat) (h l : Nat) {rest : List Nat}
    (hrest : ∀ d ∈ rest, d < 16) :
    BitVec.ofNat 8 (digitsValue (pre ++ h :: l :: rest) / 16 ^ rest.length) =
      BitVec.ofNat 8 (16 * h + l) := by
  have hsplit : pre ++ h :: l :: rest = (pre ++ [h] ++ [l]) ++ rest := by simp
  rw [hsplit, digitsValue_append_div _ hrest, digitsValue_concat, digitsValue_concat]
  apply BitVec.eq_of_toNat_eq
  simp only [BitVec.toNat_ofNat]
  omega

/-- The bytes of a digit string as quotients of its number, whatever digits stand before it. -/
theorem pairBytes_eq_map_div (pre : List Nat) {ds : List Nat} (hds : ∀ d ∈ ds, d < 16) :
    pairBytes ds = (List.range (ds.length / 2)).map fun j =>
      BitVec.ofNat 8 (digitsValue (pre ++ ds) / 16 ^ (ds.length - 2 - 2 * j)) := by
  induction ds using pairBytes.induct generalizing pre with
  | case1 h l rest ih =>
    have hrest : ∀ d ∈ rest, d < 16 := fun d hd => hds d (by simp [hd])
    have hcount : (h :: l :: rest).length / 2 = rest.length / 2 + 1 :=
      Nat.add_div_right rest.length Nat.two_pos
    have hpre : pre ++ h :: l :: rest = pre ++ [h, l] ++ rest := by simp
    rw [hcount, List.range_succ_eq_map, List.map_cons, List.map_map, pairBytes,
      ih (pre ++ [h, l]) hrest, ← hpre]
    congr 1
    · exact (ofNat_digitsValue_div pre h l hrest).symm
    · refine List.map_congr_left fun j _ => ?_
      have hexp : (h :: l :: rest).length - 2 - 2 * (j + 1) = rest.length - 2 - 2 * j := by
        simp only [List.length_cons]
        omega
      simp only [Function.comp, Nat.succ_eq_add_one, hexp]
  | case2 ds hno =>
    have hlen : ds.length < 2 := length_lt_two hno
    rw [pairBytes_of_lt_two hlen, Nat.div_eq_of_lt hlen, List.range_zero, List.map_nil]

/-! The source's StreamXOR (R144). -/

theorem keyByte_ofNat {n : Nat} (h : n < 2 ^ 64) (j : Nat) :
    keyByte (BitVec.ofNat 64 n) j = BitVec.ofNat 8 (n / 16 ^ (14 - 2 * j)) := by
  apply BitVec.eq_of_toNat_eq
  rw [toNat_keyByte_eq_div_pow_sixteen, BitVec.toNat_ofNat, BitVec.toNat_ofNat, Nat.mod_eq_of_lt h]

/-- A chunk of 16 digits read as a big-endian number has the chunk's bytes from the top. -/
theorem keyBytes_srcParse {t : List Char} {ds : List Nat} (h : hexvals t = some ds)
    (hlen : ds.length = 16) : keyBytes (srcParse t) = pairBytes ds := by
  have hlt : digitsValue ds < 2 ^ 64 :=
    (digitsValue_lt (lt_of_mem_hexvals h)).trans_eq (by simp [hlen])
  rw [srcParse, srcHexInt_of_hexvals h, pairBytes_eq_map_div [] (lt_of_mem_hexvals h), hlen]
  exact List.map_congr_left fun j _ => keyByte_ofNat hlt j

/-- Formatting a chunk is `hex` of its bytes. -/
theorem srcFormat_eq_hex (v : Key) : srcFormat v = hex (keyBytes v) := by
  have hpairs : List.range 16 = (List.range 8).flatMap fun j => [2 * j, 2 * j + 1] := by decide
  rw [srcFormat, hpairs, List.map_flatMap, hex, keyBytes, List.flatMap_map]
  refine List.flatMap_congr fun j hmem => ?_
  have hj : j < 8 := List.mem_range.mp hmem
  have hhigh : v.toNat / 16 ^ (15 - 2 * j) % 16 = (keyByte v j).toNat / 16 := by
    rw [show 15 - 2 * j = 14 - 2 * j + 1 by omega, Nat.pow_succ, ← Nat.div_div_eq_div_mul,
      toNat_keyByte_eq_div_pow_sixteen]
    omega
  have hlow : v.toNat / 16 ^ (15 - (2 * j + 1)) % 16 = (keyByte v j).toNat % 16 := by
    rw [show 15 - (2 * j + 1) = 14 - 2 * j by omega, toNat_keyByte_eq_div_pow_sixteen]
    omega
  simp only [List.map_cons, List.map_nil, hhigh, hlow, hex2]

/-- The source's chunks are the 8-byte chunks of the digits' bytes. -/
theorem srcChunks_eq_hex (key : Key) (n : Nat) {t : List Char} {ds : List Nat}
    (h : hexvals t = some ds) (hlen : ds.length = 16 * n) :
    srcChunks key n t = hex (xorFrom key 0 (pairBytes ds)) := by
  induction n generalizing t ds with
  | zero =>
    obtain rfl : ds = [] := List.eq_nil_of_length_eq_zero hlen
    rfl
  | succ n ih =>
    have htake : (ds.take 16).length = 16 := by
      rw [List.length_take]
      omega
    have hdrop : (ds.drop 16).length = 16 * n := by
      rw [List.length_drop]
      omega
    have hsplit : pairBytes ds = pairBytes (ds.take 16) ++ pairBytes (ds.drop 16) := by
      rw [← pairBytes_append _ (by rw [htake]), List.take_append_drop]
    rw [srcChunks, ih (hexvals_drop h 16) hdrop, srcFormat_eq_hex, ← xorFrom_keyBytes,
      keyBytes_srcParse (hexvals_take h 16) htake, hsplit, xorFrom_append, length_pairBytes, htake,
      xorFrom_add_eight, hex_append]

/-- StreamXOR.apply on hex digits, an odd number of which gets one '0' appended (R144). -/
theorem srcStreamXor_of_hexvals (key : Key) {t : List Char} {ds : List Nat}
    (h : hexvals t = some ds) :
    srcStreamXor key t = hex (xorStream key (pairBytes (evenDigits ds))) := by
  have hpad := hexvals_append_zeros h (16 * ((ds.length + 15) / 16) - ds.length)
  rw [xorStream, ← pairBytes_pad, srcStreamXor, srcPad, ← length_of_hexvals h]
  refine srcChunks_eq_hex key _ hpad ?_
  simp only [List.length_append, List.length_replicate, ← length_of_hexvals h]
  omega

end Sys2Proof.Machine
end

section
/-! SUPPORT. The obligations on the XOR stream unit (spec 41_stream_xor.md), from the laws above. -/

namespace Sys2Proof.Proofs

open Sys2Proof.Machine

/-- Settles O33: XorStream of an input that fits IBUF fits OBUF. -/
theorem xorksAppliesTheKeystream : Obligations.XorksAppliesTheKeystream := by
  refine ⟨decode_encode .xorks, fun s hm => ⟨fun hlen => ?_, exec_xorks_of_lt⟩⟩
  have hout : (xorStream s.key s.input).length = ceil8 s.ilen.toNat := by
    rw [length_xorStream, length_input]
  have hfit : ceil8 s.ilen.toNat ≤ bufSize := ceil8_le_bufSize hlen
  have hc := commitOk_commitsString _ none s hm (hout.trans_le hfit)
  have holen := hc.olen.trans hout
  exact ⟨_, exec_xorks_of_le hlen, hc, holen, holen.trans_le hfit⟩

/-- Settles O46: XorStream is the XOR with the keystream from offset 0 of the padded string. -/
theorem xorStreamByteByByte : Obligations.XorStreamByteByByte := by
  refine ⟨fun key j _ => toNat_keyByte key j, fun key s =>
    ⟨length_xorStream key s, le_ceil8 _, Nat.mul_mod_right 8 _, ?_, fun j hj => ?_⟩⟩
  · unfold ceil8
    omega
  · have hbyte := getD_xorFrom key 0 (hj.trans_eq (length_padTo8 s).symm)
    rwa [Nat.zero_add] at hbyte

/-- Settles O47: each keystream byte cancels itself, and a multiple of 8 has no padding. -/
theorem xorStreamTwiceRestoresThePaddedInput :
    Obligations.XorStreamTwiceRestoresThePaddedInput :=
  fun key s => ⟨xorStream_xorStream key s,
    fun h8 => (xorStream_xorStream key s).trans (padTo8_of_multiple h8)⟩

/-- Settles O58: chunk by chunk, and `hex` is a string of an even number of digits. -/
theorem streamXorStringFormAgrees : Obligations.StreamXorStringFormAgrees := by
  refine ⟨fun key h ds => srcStreamXor_of_hexvals key, fun key s => ?_⟩
  rw [srcStreamXor_of_hexvals key (hexvals_hex s), evenDigits_hexDigits, pairBytes_hexDigits]

end Sys2Proof.Proofs
end

section
/-! SUPPORT. The framer (spec 42_framer.md): the checksum as a fold of signed bytes, the frame as its
four parts, and the validator on a buffer so cut. -/

namespace Sys2Proof.Machine

variable {s : State} {first sum a b : Byte} {bs msg pad d out : List Byte}

/-! What the commands leave (R160 to R162). -/

theorem exec_csum_of_le (hlen : s.ilen.toNat ≤ 264) :
    exec .csum s = .next (commitOk none (some ((csum s.input).setWidth 24)) s) := by
  simp only [exec, execCsum, withInput_of_le (limit := maxInput) hlen]

theorem exec_csum_of_lt (hlen : 264 < s.ilen.toNat) :
    exec .csum s = .next (raiseErr .badArgument s) := by
  simp only [exec, execCsum, withInput_of_lt (limit := maxInput) hlen]

theorem exec_frame_of_le (hlen : s.ilen.toNat ≤ 255) :
    exec .frame s = .next (commitOk (some (frame s.input)) none s) := by
  simp only [exec, execFrame, withInput_of_le (limit := maxMessage) hlen]

theorem exec_frame_of_lt (hlen : 255 < s.ilen.toNat) :
    exec .frame s = .next (raiseErr .badArgument s) := by
  simp only [exec, execFrame, withInput_of_lt (limit := maxMessage) hlen]

theorem exec_unframe_of_le (hlen : s.ilen.toNat ≤ 264) :
    exec .unframe s = .next (commitString (unframe s.input) s) := by
  simp only [exec, execUnframe, withInput_of_le (limit := maxInput) hlen]

theorem exec_unframe_of_lt (hlen : 264 < s.ilen.toNat) :
    exec .unframe s = .next (raiseErr .badArgument s) := by
  simp only [exec, execUnframe, withInput_of_lt (limit := maxInput) hlen]

/-! The checksum (R150, R151). -/

theorem s8_eq_toInt (b : Byte) : s8 b = b.toInt := by
  rw [BitVec.toInt_eq_toNat_cond, s8]
  split <;> split <;> omega

theorem csum_concat (bs : List Byte) (b : Byte) : csum (bs ++ [b]) = csumStep (csum bs) b := by
  rw [csum, List.foldl_concat, csum]

theorem csumStep_eq_ofInt (a b : Byte) :
    csumStep a b = BitVec.ofInt 8 (Int.tmod (a.toInt + b.toInt) 127 + 1) := by
  rw [csumStep, s8_eq_toInt, s8_eq_toInt, trunc8, rem]

/-- One step before truncation: the remainder of any sum lies in [-126, 126]. -/
theorem tmod_add_one_bounds (v : Int) : -125 ≤ Int.tmod v 127 + 1 ∧ Int.tmod v 127 + 1 ≤ 127 := by
  have hlow : -127 < Int.tmod v 127 := Int.lt_tmod_of_pos v (by decide)
  have hhigh : Int.tmod v 127 < 127 := Int.tmod_lt_of_pos v (by decide)
  omega

/-- The step's value fits a signed byte, so truncation does not change it. -/
theorem toInt_csumStep (a b : Byte) :
    (csumStep a b).toInt = Int.tmod (a.toInt + b.toInt) 127 + 1 := by
  obtain ⟨hlow, hhigh⟩ := tmod_add_one_bounds (a.toInt + b.toInt)
  rw [csumStep_eq_ofInt, BitVec.toInt_ofInt, Int.bmod_eq_of_le (by omega) (by omega)]

/-- On bytes below 0x80 the step is unsigned. -/
theorem toNat_csumStep (ha : a.toNat < 0x80) (hb : b.toNat < 0x80) :
    (csumStep a b).toNat = (a.toNat + b.toNat) % 127 + 1 := by
  have hmod : Int.tmod (a.toInt + b.toInt) 127 = ((a.toNat + b.toNat) % 127 : Nat) := by
    rw [BitVec.toInt_eq_toNat_of_lt (by omega), BitVec.toInt_eq_toNat_of_lt (by omega)]
    rfl
  have hval := toInt_csumStep a b
  rw [hmod, BitVec.toInt_eq_toNat_cond] at hval
  omega

/-- On bytes below 0x80 the checksum is the unsigned fold, and it stays below 0x80 at every step. -/
theorem toNat_csum_of_ascii (h : ∀ b ∈ bs, b.toNat < 0x80) :
    (csum bs).toNat = bs.foldl (fun acc b => (acc + b.toNat) % 127 + 1) 0 ∧
      (csum bs).toNat < 0x80 := by
  induction bs using List.reverseRecOn with
  | nil => exact ⟨rfl, by decide⟩
  | append_singleton bs b ih =>
    obtain ⟨hfold, hlt⟩ := ih fun c hc => h c (by simp [hc])
    have hstep := toNat_csumStep hlt (h b (by simp))
    rw [csum_concat, List.foldl_concat, ← hfold]
    exact ⟨hstep, by omega⟩

theorem csum_pos_of_ascii (h : ∀ b ∈ bs, b.toNat < 0x80) (hne : bs ≠ []) :
    1 ≤ (csum bs).toNat := by
  obtain ⟨init, b, rfl⟩ := (List.eq_nil_or_concat' bs).resolve_left hne
  rw [(toNat_csum_of_ascii h).1, List.foldl_concat]
  exact Nat.le_add_left 1 _

/-! The frame (R152, R153). -/

theorem frame_eq_append (m : List Byte) :
    frame m = [BitVec.ofNat 8 m.length] ++ m ++ [csum m] ++
      List.replicate (padCount (m.length + 2)) (BitVec.ofNat 8 (padCount (m.length + 2))) := by
  rw [frame, length_frameBody]
  rfl

theorem padCount_bounds (n : Nat) : 1 ≤ padCount n ∧ padCount n ≤ 3 := by
  unfold padCount
  omega

/-! The validator (R154). -/

theorem getD_input {j : Nat} (hj : j < s.ilen.toNat) : s.input.getD j 0#8 = s.ibuf j :=
  Memory.getD_load s.mem ibufBase s.ilen.toNat j hj

/-- Both length checks: the buffer must hold the length byte, as many bytes as it says, and a checksum. -/
theorem unframe_of_short (h : (first :: bs).length < first.toNat + 2) :
    unframe (first :: bs) = .error .invalidLength := by
  simp only [unframe, if_pos h, ite_self]

/-- A buffer that passes the length checks is cut into its length byte, message, checksum and padding. -/
theorem exists_parts (h : first.toNat + 2 ≤ (first :: bs).length) :
    ∃ msg sum pad, msg.length = first.toNat ∧ first :: bs = [first] ++ msg ++ [sum] ++ pad := by
  have hlt : first.toNat < bs.length := by simpa using h
  refine ⟨bs.take first.toNat, bs[first.toNat], bs.drop (first.toNat + 1), ?_, ?_⟩
  · exact List.length_take_of_le hlt.le
  · simp

/-- The two checks after the length checks, on a buffer so cut: the padding first. -/
theorem unframe_parts (hmsg : msg.length = first.toNat) (sum : Byte) (pad : List Byte) :
    unframe ([first] ++ msg ++ [sum] ++ pad) =
      if ∃ b ∈ pad, b.toNat ≠ pad.length then .error .invalidPadding
      else if csum msg = sum then .ok msg else .error .checksumMismatch := by
  have hlen : ¬msg.length + (pad.length + 1) + 1 < msg.length := by omega
  have hpad : msg.length + (pad.length + 1) - (msg.length + 1) = pad.length := by omega
  simp [unframe, ← hmsg, hlen, hpad, eq_comm (a := sum)]

/-- What UNFRAME extracts is as long as the first byte says, and shorter than the buffer. -/
theorem length_eq_first_of_unframe (h : unframe d = .ok out) :
    out.length = (d.getD 0 0#8).toNat ∧ out.length < d.length := by
  cases d with
  | nil => cases h
  | cons first bs =>
    by_cases hshort : (first :: bs).length < first.toNat + 2
    · rw [unframe_of_short hshort] at h
      cases h
    · have hlen : first.toNat + 2 ≤ (first :: bs).length := Nat.le_of_not_lt hshort
      obtain ⟨msg, sum, pad, hmsg, hd⟩ := exists_parts hlen
      rw [hd, unframe_parts hmsg] at h
      split_ifs at h
      cases h
      exact ⟨hmsg, by omega⟩

theorem unframe_of_bad_padding (hmsg : msg.length = first.toNat)
    (hbad : ∃ b ∈ pad, b.toNat ≠ pad.length) :
    unframe ([first] ++ msg ++ [sum] ++ pad) = .error .invalidPadding := by
  rw [unframe_parts hmsg, if_pos hbad]

theorem unframe_of_good_padding (hmsg : msg.length = first.toNat)
    (hgood : ∀ b ∈ pad, b.toNat = pad.length) :
    unframe ([first] ++ msg ++ [sum] ++ pad) =
      if csum msg = sum then .ok msg else .error .checksumMismatch := by
  rw [unframe_parts hmsg, if_neg (by simpa using hgood)]

theorem good_padding_replicate {t : Nat} (ht : t ≤ 255) :
    ∀ b ∈ List.replicate t (BitVec.ofNat 8 t),
      b.toNat = (List.replicate t (BitVec.ofNat 8 t)).length := by
  intro b hb
  rw [List.eq_of_mem_replicate hb, List.length_replicate, BitVec.toNat_ofNat,
    Nat.mod_eq_of_lt (by omega)]

/-! The parts of a buffer, by position (R154). -/

theorem length_before_padding (hmsg : msg.length = first.toNat) :
    ([first] ++ msg ++ [sum]).length = first.toNat + 2 := by
  simp [hmsg]

theorem length_sub_before_padding (hmsg : msg.length = first.toNat) :
    ([first] ++ msg ++ [sum] ++ pad).length - (first.toNat + 2) = pad.length := by
  rw [List.length_append, length_before_padding hmsg, Nat.add_sub_cancel_left]

theorem take_drop_one_parts (hmsg : msg.length = first.toNat) :
    (([first] ++ msg ++ [sum] ++ pad).drop 1).take first.toNat = msg := by
  simp [← hmsg]

theorem getD_checksum_parts (hmsg : msg.length = first.toNat) :
    ([first] ++ msg ++ [sum] ++ pad).getD (first.toNat + 1) 0#8 = sum := by
  simp [← hmsg]

/-- Changing the checksum byte changes no other part. -/
theorem set_checksum_parts (hmsg : msg.length = first.toNat) (b : Byte) :
    ([first] ++ msg ++ [sum] ++ pad).set (first.toNat + 1) b = [first] ++ msg ++ [b] ++ pad := by
  simp [← hmsg]

/-- A property of all bytes after a first part, by their positions in the whole string. -/
theorem forall_mem_iff_getD_append (pre : List Byte) {P : Byte → Prop} :
    (∀ b ∈ pad, P b) ↔
      ∀ j, pre.length ≤ j → j < (pre ++ pad).length → P ((pre ++ pad).getD j 0#8) := by
  constructor
  · intro h j hle hlt
    rw [List.getD_eq_getElem _ _ hlt, List.getElem_append_right hle]
    exact h _ (List.getElem_mem _)
  · intro h b hb
    obtain ⟨i, hi, rfl⟩ := List.mem_iff_getElem.mp hb
    simpa [hi] using h (pre.length + i) (Nat.le_add_right _ i) (by simpa using hi)

/-- The padding check by position: the padding begins after the checksum (R154). -/
theorem good_padding_iff (hmsg : msg.length = first.toNat) :
    (∀ b ∈ pad, b.toNat = pad.length) ↔
      ∀ j, first.toNat + 2 ≤ j → j < ([first] ++ msg ++ [sum] ++ pad).length →
        (([first] ++ msg ++ [sum] ++ pad).getD j 0#8).toNat = pad.length := by
  rw [← length_before_padding hmsg]
  exact forall_mem_iff_getD_append _

/-- Changing one byte of a good padding is caught (R155). -/
theorem unframe_set_padding {j : Nat} (hmsg : msg.length = first.toNat)
    (hgood : ∀ b ∈ pad, b.toNat = pad.length) (hle : first.toNat + 2 ≤ j)
    (hlt : j < ([first] ++ msg ++ [sum] ++ pad).length)
    (hne : b ≠ ([first] ++ msg ++ [sum] ++ pad).getD j 0#8) :
    unframe (([first] ++ msg ++ [sum] ++ pad).set j b) = .error .invalidPadding := by
  have hold := (good_padding_iff hmsg).mp hgood j hle hlt
  have hnew : b.toNat ≠ pad.length := fun h => hne (BitVec.eq_of_toNat_eq (h.trans hold.symm))
  rw [← length_before_padding (sum := sum) hmsg] at hle
  rw [List.length_append] at hlt
  rw [List.set_append_right _ _ hle]
  exact unframe_of_bad_padding hmsg
    ⟨b, List.mem_set (Nat.sub_lt_left_of_lt_add hle hlt) b, by rwa [List.length_set]⟩

end Sys2Proof.Machine
end

section
/-! SUPPORT. The obligations on the framer (spec 42_framer.md), from the laws above. -/

namespace Sys2Proof.Proofs

open Sys2Proof.Machine

/-- Settles O34: the success commit of a command without a string writes RESULT alone. -/
theorem csumReturnsTheChecksum : Obligations.CsumReturnsTheChecksum := by
  refine ⟨decode_encode .csum, fun s => ⟨fun hlen => ?_, exec_csum_of_lt⟩⟩
  rw [exec_csum_of_le hlen, BitVec.ofNat_toNat]
  rfl

/-- Settles O35: the frame of a message of at most 255 bytes has at most 258, which fit OBUF. -/
theorem frameFramesTheMessage : Obligations.FrameFramesTheMessage := by
  refine ⟨decode_encode .frame, fun s hm => ⟨fun hlen => ?_, exec_frame_of_lt⟩⟩
  have hout : (frame s.input).length = frameLength s.ilen.toNat := by
    rw [length_frame, length_input]
  have hmax : frameLength s.ilen.toNat ≤ 258 := frameLength_le hlen
  have hmin : 3 ≤ frameLength s.ilen.toNat := Nat.le_mul_of_pos_right 3 (Nat.succ_pos _)
  have hc := commitOk_commitsString _ none s hm (hout.trans_le (hmax.trans (by decide)))
  have holen := hc.olen.trans hout
  exact ⟨_, exec_frame_of_le hlen, hc, holen, hmin.trans_eq holen.symm, holen.trans_le hmax⟩

/-- Settles O36: the commit follows what Unframe answers, and a message is as long as the first byte of
the input says. -/
theorem unframeExtractsOrFails : Obligations.UnframeExtractsOrFails := by
  refine ⟨decode_encode .unframe, fun s hm => ⟨fun orig hlen hu => ?_, fun e hlen hu => ?_,
    exec_unframe_of_lt⟩⟩
  · have hc := commitOk_commitsString orig none s hm ((length_of_unframe hu).trans (by decide))
    obtain ⟨hfirst, hlt⟩ := length_eq_first_of_unframe hu
    have hpos : 0 < s.ilen.toNat := (Nat.zero_le _).trans_lt (hlt.trans_eq (length_input s))
    rw [getD_input hpos] at hfirst
    exact ⟨_, by rw [exec_unframe_of_le hlen, hu]; rfl, hc, hc.olen.trans hfirst⟩
  · exact ⟨by rw [exec_unframe_of_le hlen, hu]; rfl, unframe_error_cases hu⟩

/-- Settles O48: the fold from the right end, and the invariant of bytes below 0x80. -/
theorem checksumFoldAndRanges : Obligations.ChecksumFoldAndRanges := by
  refine ⟨rfl, fun bs b => ?_, fun bs h hne => ?_, fun bs hne hout => ?_⟩
  · rw [csum_concat, toInt_csumStep]
    exact ⟨csumStep_eq_ofInt _ b, rfl, tmod_add_one_bounds _⟩
  · obtain ⟨hfold, hlt⟩ := toNat_csum_of_ascii h
    exact ⟨csum_pos_of_ascii h hne, Nat.le_of_lt_succ hlt, hfold⟩
  · by_contra! h
    have hpos := csum_pos_of_ascii h hne
    obtain ⟨-, hlt⟩ := toNat_csum_of_ascii h
    obtain hzero | hhigh := hout
    · simp [hzero] at hpos
    · omega

/-- Settles O49: the padding rounds `L + 2` up to the next multiple of 3. -/
theorem frameLayoutAndLength : Obligations.FrameLayoutAndLength := by
  refine ⟨fun m _ => ?_, rfl, rfl, rfl⟩
  obtain ⟨hmin, hmax⟩ := padCount_bounds (m.length + 2)
  have hlen := length_frame m
  refine ⟨padCount (m.length + 2), rfl, hmin, hmax, frame_eq_append m, ?_, ?_, hlen, hlen⟩
  · unfold padCount
    omega
  · rw [hlen]
    unfold frameLength frameBlocks padCount
    omega

/-- Settles O50: the buffer is too short, or it is cut into its parts and its padding and checksum are
looked at. -/
theorem unframeChecksInOrder : Obligations.UnframeChecksInOrder := by
  refine ⟨rfl, ?_⟩
  rintro first rest _ _ rfl rfl
  refine ⟨fun h => unframe_of_short (Nat.lt_add_right 2 h), fun _ => unframe_of_short,
    fun hlen hbad => ?_, fun hlen hgood => ?_⟩
  · obtain ⟨msg, sum, pad, hmsg, hd⟩ := exists_parts hlen
    rw [hd, length_sub_before_padding hmsg] at hbad
    obtain ⟨j, hle, hlt, hne⟩ := hbad
    rw [hd]
    refine unframe_of_bad_padding hmsg ?_
    by_contra! hall
    exact hne ((good_padding_iff hmsg).mp hall j hle hlt)
  · obtain ⟨msg, sum, pad, hmsg, hd⟩ := exists_parts hlen
    rw [hd, length_sub_before_padding hmsg] at hgood
    rw [hd, take_drop_one_parts hmsg, getD_checksum_parts hmsg,
      unframe_of_good_padding hmsg ((good_padding_iff hmsg).mpr hgood)]
    exact ⟨fun h => if_neg h, fun h => if_pos h⟩

/-- Settles O51: each buffer is the length byte, the message, a checksum and some padding, and the
validator looks at the padding, then at the checksum. -/
theorem unframeOfFrames : Obligations.UnframeOfFrames := by
  intro m hm
  have hlength : m.length = (BitVec.ofNat 8 m.length).toNat := by
    rw [BitVec.toNat_ofNat, Nat.mod_eq_of_lt (by omega)]
  have hframe : padCount (m.length + 2) ≤ 255 := (padCount_bounds _).2.trans (by decide)
  have hgood : ∀ t ≤ 255, unframe ([BitVec.ofNat 8 m.length] ++ m ++ [csum m] ++
      List.replicate t (BitVec.ofNat 8 t)) = .ok m := fun t ht =>
    (unframe_of_good_padding hlength (good_padding_replicate ht)).trans (if_pos rfl)
  rw [frame_eq_append]
  refine ⟨hgood _ hframe, by simpa using hgood 0, hgood, fun pad hpad => ?_,
    fun j b hle => unframe_set_padding hlength (good_padding_replicate hframe) (hlength ▸ hle),
    fun b hb => ?_⟩
  · obtain ⟨b, hb⟩ := List.exists_mem_of_length_pos (l := pad) (by omega)
    exact unframe_of_bad_padding hlength ⟨b, hb, by omega⟩
  · rw [show m.length + 1 = (BitVec.ofNat 8 m.length).toNat + 1 from congrArg (· + 1) hlength,
      set_checksum_parts hlength, unframe_of_good_padding hlength (good_padding_replicate hframe),
      if_neg hb.symm]

end Sys2Proof.Proofs
end

section
/-! SUPPORT. The codec (spec 43_codec.md): what NOP, ENCRYPT and DECRYPT leave, the beginning of a
string through the stream XOR and the block coder, and decryption of what begins with a frame's
encryption. -/

namespace Sys2Proof.Machine

variable {s : State} {p : Perm24} {key : Key} {n : Nat} {l : Byte} {c c' m bs extra : List Byte}

/-! What the commands leave (R170, R172, R178). -/

theorem exec_nop (s : State) : exec .nop s = .next { s with err := .ok, pend := false } := rfl

theorem exec_encrypt_of_le (hlen : s.ilen.toNat ≤ 255) :
    exec .encrypt s = .next (commitOk (some (encryptBytes s.perm s.key s.input)) none s) := by
  simp only [exec, execEncrypt, withInput_of_le (limit := maxMessage) hlen]

theorem exec_encrypt_of_lt (hlen : 255 < s.ilen.toNat) :
    exec .encrypt s = .next (raiseErr .badArgument s) := by
  simp only [exec, execEncrypt, withInput_of_lt (limit := maxMessage) hlen]

theorem exec_decrypt_of_le (hlen : s.ilen.toNat ≤ 264) :
    exec .decrypt s =
      .next (commitString (decryptBytes s.policy s.perm s.key s.input) s) := by
  simp only [exec, execDecrypt, withInput_of_le (limit := maxInput) hlen]

theorem exec_decrypt_of_lt (hlen : 264 < s.ilen.toNat) :
    exec .decrypt s = .next (raiseErr .badArgument s) := by
  simp only [exec, execDecrypt, withInput_of_lt (limit := maxInput) hlen]

/-- The ciphertext of a message that ENCRYPT takes fits OBUF (R172). -/
theorem length_encryptBytes_le (hm : m.length ≤ 255) :
    (encryptBytes p key m).length ≤ bufSize := by
  rw [length_encryptBytes]
  exact ceil8_le_bufSize ((frameLength_le hm).trans (by decide))

theorem exec_encrypt_commitsString (hm : Memory.wf s.mem) (hlen : s.ilen.toNat ≤ 255) :
    ∃ t, exec .encrypt s = .next t ∧
      CommitsString (encryptBytes s.perm s.key s.input) s.result s t :=
  ⟨_, exec_encrypt_of_le hlen, commitOk_commitsString _ none s hm
    (length_encryptBytes_le ((length_input s).trans_le hlen))⟩

theorem exec_decrypt_commitsString (hm : Memory.wf s.mem) (hlen : s.ilen.toNat ≤ 264)
    (hd : decryptBytes s.policy s.perm s.key s.input = .ok m) :
    ∃ t, exec .decrypt s = .next t ∧ CommitsString m s.result s t ∧ m.length ≤ 255 := by
  have hmax : m.length ≤ 255 := length_of_unframe hd
  exact ⟨_, by rw [exec_decrypt_of_le hlen, hd]; rfl,
    commitOk_commitsString m none s hm (hmax.trans (by decide)), hmax⟩

theorem exec_decrypt_of_error {e : ErrCode} (hlen : s.ilen.toNat ≤ 264)
    (hd : decryptBytes s.policy s.perm s.key s.input = .error e) :
    exec .decrypt s = .next (afterError e s) := by
  rw [exec_decrypt_of_le hlen, hd]
  rfl

theorem CommitsString.err_eq {out : List Byte} {r : Word24} {t : State}
    (h : CommitsString out r s t) : t.err = .ok := by
  rw [h.rest]

/-! The stream XOR on the beginning of its input and on its padding (R141, R142). -/

theorem xorFrom_take (key : Key) (i n : Nat) (bs : List Byte) :
    (xorFrom key i bs).take n = xorFrom key i (bs.take n) := by
  induction bs generalizing i n with
  | nil => simp [xorFrom]
  | cons b rest ih =>
    cases n with
    | zero => rfl
    | succ n => simp only [xorFrom, List.take_succ_cons, ih]

/-- As far as the input goes, the first bytes of XorStream are the XOR of the input's first bytes. -/
theorem take_xorStream (key : Key) (hn : n ≤ bs.length) :
    (xorStream key bs).take n = xorFrom key 0 (bs.take n) := by
  rw [xorStream, xorFrom_take, padTo8, List.take_append_of_le_length hn]

/-- The first `n` bytes of XorStream, padding or not, depend on those of the input and on its length. -/
theorem take_xorStream_congr (key : Key) (hlen : c'.length = c.length)
    (h : c'.take n = c.take n) : (xorStream key c').take n = (xorStream key c).take n := by
  simp only [xorStream, xorFrom_take, padTo8, List.take_append, h, hlen]

/-- The bytes of XorStream beyond its input are the keystream's (R141). -/
theorem getD_xorStream_of_length_le {j : Nat} (hle : bs.length ≤ j) (hlt : j < ceil8 bs.length) :
    (xorStream key bs).getD j 0#8 = keyByte key (j % 8) := by
  have hpad : (padTo8 bs).getD j 0#8 = 0#8 := by
    rw [padTo8, List.getD_append_right _ _ _ _ hle, zeros]
    simp
  rw [xorStream, getD_xorFrom key 0 (hlt.trans_eq (length_padTo8 bs).symm), hpad, Nat.zero_add,
    BitVec.zero_xor]

/-! The block decoder on the beginning of its input and on encoded blocks (R106, R107). -/

/-- DecBlocks reads no byte beyond the groups it is told to decode. -/
theorem decBlocks_take (p : Perm24) (n : Nat) (bs : List Byte) :
    decBlocks p n (bs.take (3 * n)) = decBlocks p n bs := by
  induction n, bs using decBlocks.induct with
  | case1 n h0 h1 h2 rest ih =>
    rw [Nat.mul_succ]
    simp only [List.take_succ_cons, decBlocks, ih]
  | case2 n bs hbs =>
    have hzero : min n (bs.length / 3) = 0 := min_groups_eq_zero hbs
    rw [decBlocks_eq_nil p hzero, decBlocks_eq_nil p (by rw [List.length_take]; omega)]

/-- Encoded blocks decode to what they encode, and decoding goes on behind them. -/
theorem decBlocks_encBlocks_append (p : Perm24) (n : Nat) (extra : List Byte)
    (h3 : bs.length % 3 = 0) :
    decBlocks p (bs.length / 3 + n) (encBlocks p bs ++ extra) = bs ++ decBlocks p n extra := by
  induction bs using encBlocks.induct with
  | case1 b0 b1 b2 rest ih =>
    obtain ⟨h0, h1, h2, hcode, hgroup⟩ := decGroup_getCode p b0 b1 b2
    simp only [List.length_cons] at h3 ⊢
    rw [show (rest.length + 1 + 1 + 1) / 3 + n = rest.length / 3 + n + 1 by omega, encBlocks, hcode]
    simp only [List.cons_append, List.nil_append, decBlocks, hgroup]
    rw [ih (by omega)]
  | case2 bs hbs =>
    have hlen : bs.length < 3 := length_lt_three hbs
    obtain rfl : bs = [] := List.eq_nil_of_length_eq_zero (by omega)
    simp [encBlocks]

theorem decAll_encBlocks_append (p : Perm24) (extra : List Byte) (h3 : bs.length % 3 = 0) :
    decAll p (encBlocks p bs ++ extra) = bs ++ decAll p extra := by
  have hgroups : (encBlocks p bs ++ extra).length / 3 = bs.length / 3 + extra.length / 3 := by
    rw [List.length_append, length_encBlocks]
    omega
  rw [decAll, hgroups, decBlocks_encBlocks_append p _ extra h3, decAll]

/-! The encoded frame (R152, R153, R171). -/

theorem length_encBlocks_frame (p : Perm24) (m : List Byte) :
    (encBlocks p (frame m)).length = frameLength m.length := by
  rw [length_encBlocks, length_frame, frameLength, Nat.mul_div_cancel_left _ (by decide)]

theorem length_frame_mod_three (m : List Byte) : (frame m).length % 3 = 0 := by
  rw [length_frame]
  exact Nat.mul_mod_right 3 _

/-- `F(L)` bytes of the encoded frame decode to the frame, whatever follows them. -/
theorem decBlocks_of_take_eq_encBlocks_frame
    (h : bs.take (frameLength m.length) = encBlocks p (frame m)) :
    decBlocks p (frameBlocks m.length) bs = frame m := by
  have hgroups : (frame m).length / 3 = frameBlocks m.length := by
    rw [length_frame, frameLength, Nat.mul_div_cancel_left _ (by decide)]
  calc decBlocks p (frameBlocks m.length) bs
      = decBlocks p (frameBlocks m.length) (bs.take (frameLength m.length)) :=
        (decBlocks_take p _ bs).symm
    _ = decBlocks p ((frame m).length / 3 + 0) (encBlocks p (frame m) ++ []) := by
        rw [h, hgroups, List.append_nil, Nat.add_zero]
    _ = frame m ++ decBlocks p 0 [] := decBlocks_encBlocks_append p 0 [] (length_frame_mod_three m)
    _ = frame m := List.append_nil _

/-- The frame's length byte holds the length of a message that FRAME takes (R152). -/
theorem toNat_lengthByte (hm : m.length ≤ 255) : (BitVec.ofNat 8 m.length).toNat = m.length := by
  rw [BitVec.toNat_ofNat, Nat.mod_eq_of_lt (by omega)]

theorem unframe_frame (hm : m.length ≤ 255) : unframe (frame m) = .ok m :=
  (Proofs.unframeOfFrames m hm).1

/-- Extra bytes after a frame are taken for padding, of a length that the frame's own padding byte does
not give. -/
theorem unframe_frame_append (hm : m.length ≤ 255) (hne : extra ≠ []) :
    unframe (frame m ++ extra) = .error .invalidPadding := by
  obtain ⟨hmin, hmax⟩ := padCount_bounds (m.length + 2)
  have hextra : 0 < extra.length := List.length_pos_iff.mpr hne
  rw [frame_eq_append, List.append_assoc]
  refine unframe_of_bad_padding (toNat_lengthByte hm).symm
    ⟨BitVec.ofNat 8 (padCount (m.length + 2)), ?_, ?_⟩
  · exact List.mem_append_left _ (List.mem_replicate.mpr ⟨by omega, rfl⟩)
  · rw [BitVec.toNat_ofNat, List.length_append, List.length_replicate]
    omega

/-! The groups that each policy decodes (R176). -/

/-- The length byte is the first byte of any decoding that decodes a group at all. -/
theorem lengthByte_eq_head?_decBlocks (p : Perm24) (n : Nat) (bs : List Byte) :
    lengthByte p bs = (decBlocks p (n + 1) bs).head? := by
  rcases bs with - | ⟨a, - | ⟨b, - | ⟨c, rest⟩⟩⟩ <;> rfl

theorem groups_frameBounded (h : lengthByte p bs = some l) :
    groups .frameBounded p bs = decBlocks p (frameBlocks l.toNat) bs := by
  simp only [groups, h]

/-- Under FRAME_BOUNDED the groups depend on no byte beyond those that the length byte implies. -/
theorem groups_frameBounded_congr (h : lengthByte p c = some l)
    (htake : c'.take (3 * frameBlocks l.toNat) = c.take (3 * frameBlocks l.toNat)) :
    groups .frameBounded p c' = groups .frameBounded p c := by
  have hdec : decBlocks p (frameBlocks l.toNat) c' = decBlocks p (frameBlocks l.toNat) c := by
    rw [← decBlocks_take, htake, decBlocks_take]
  have h' : lengthByte p c' = some l := by
    rw [lengthByte_eq_head?_decBlocks p ((l.toNat + 2) / 3)] at h ⊢
    exact (congrArg List.head? hdec).trans h
  rw [groups_frameBounded h, groups_frameBounded h', hdec]

/-- Under FRAME_BOUNDED what begins with an encoded frame decodes to the frame. -/
theorem groups_frameBounded_of_take_eq_encBlocks_frame (hm : m.length ≤ 255)
    (h : bs.take (frameLength m.length) = encBlocks p (frame m)) :
    groups .frameBounded p bs = frame m := by
  have hdec := decBlocks_of_take_eq_encBlocks_frame h
  have hbyte : lengthByte p bs = some (BitVec.ofNat 8 m.length) :=
    (lengthByte_eq_head?_decBlocks p ((m.length + 2) / 3) bs).trans (congrArg List.head? hdec)
  rwa [groups_frameBounded hbyte, toNat_lengthByte hm]

/-! Decryption (R177 to R180). -/

theorem decryptBytes_nil (policy : DecodePolicy) (p : Perm24) (key : Key) :
    decryptBytes policy p key [] = .error .invalidLength := by
  have hgroups : groups policy p [] = [] := by
    cases policy with
    | frameBounded => rfl
    | literal => exact List.eq_nil_of_length_eq_zero (length_decAll p [])
  rw [decryptBytes, xorStream, padTo8_of_multiple rfl, xorFrom, hgroups]
  rfl

/-- XorStream of a string that begins as a message's encryption does begins with the encoded frame. -/
theorem take_xorStream_of_take_encryptBytes
    (h : c.take (frameLength m.length) = (encryptBytes p key m).take (frameLength m.length)) :
    (xorStream key c).take (frameLength m.length) = encBlocks p (frame m) := by
  have hframe := (length_encBlocks_frame p m).symm
  have hle : frameLength m.length ≤ (encryptBytes p key m).length := by
    rw [length_encryptBytes]
    exact le_ceil8 _
  have hlen : frameLength m.length ≤ c.length := by
    have hcut := congrArg List.length h
    rw [List.length_take, List.length_take] at hcut
    omega
  rw [take_xorStream key hlen, h, encryptBytes, take_xorStream key hframe.le, xorFrom_xorFrom,
    hframe, List.take_length]

theorem decryptBytes_frameBounded_of_take (hm : m.length ≤ 255)
    (h : c.take (frameLength m.length) = (encryptBytes p key m).take (frameLength m.length)) :
    decryptBytes .frameBounded p key c = .ok m := by
  have hgroups := groups_frameBounded_of_take_eq_encBlocks_frame hm
    (take_xorStream_of_take_encryptBytes h)
  rw [decryptBytes, hgroups, unframe_frame hm]

/-- Under LITERAL the zero bytes that the stream XOR appended are decoded after the frame. -/
theorem decryptBytes_literal_encryptBytes (p : Perm24) (key : Key) (m : List Byte) :
    decryptBytes .literal p key (encryptBytes p key m) =
      unframe (frame m ++
        decAll p (zeros (ceil8 (frameLength m.length) - frameLength m.length))) := by
  rw [decryptBytes, encryptBytes, xorStream_xorStream, padTo8, length_encBlocks_frame, groups,
    decAll_encBlocks_append p _ (length_frame_mod_three m)]

/-- The padding to a multiple of 8 holds a complete group unless `n` is 0, 2 or 5 modulo 8 (R180). -/
theorem no_padding_group_iff (n : Nat) :
    n % 8 = 0 ∨ n % 8 = 2 ∨ n % 8 = 5 ↔ (ceil8 (3 * n) - 3 * n) / 3 = 0 := by
  have hperiod : ceil8 (3 * n) - 3 * n = ceil8 (3 * (n % 8)) - 3 * (n % 8) := by
    unfold ceil8
    omega
  have hresidues : ∀ r < 8, r = 0 ∨ r = 2 ∨ r = 5 ↔ (ceil8 (3 * r) - 3 * r) / 3 = 0 := by decide
  rw [hperiod]
  exact hresidues _ (Nat.mod_lt n (by decide))

/-- The zero bytes behind the encoded frame of a message of `n` bytes decode to nothing exactly at the
lengths that R180 names. -/
theorem decAll_padding_eq_nil_iff (p : Perm24) (n : Nat) :
    decAll p (zeros (ceil8 (frameLength n) - frameLength n)) = [] ↔
      frameBlocks n % 8 ∈ [0, 2, 5] := by
  rw [← List.length_eq_zero_iff, length_decAll, zeros, List.length_replicate, frameLength,
    Nat.mul_eq_zero, or_iff_right (by decide), ← no_padding_group_iff]
  simp only [List.mem_cons, List.not_mem_nil, or_false]

end Sys2Proof.Machine
end

section
/-! SUPPORT. The obligations on the codec (spec 43_codec.md), from the laws above. -/

namespace Sys2Proof.Proofs

open Sys2Proof.Machine

/-- Settles O37: the ciphertext of a frame of 3 to 258 bytes has 8 to 264, the last of them XORed with
zeros. -/
theorem encryptEncryptsTheMessage : Obligations.EncryptEncryptsTheMessage := by
  refine ⟨decode_encode .encrypt, fun s hm => ⟨fun hlen => ?_, exec_encrypt_of_lt⟩⟩
  obtain ⟨t, ht, hc⟩ := exec_encrypt_commitsString hm hlen
  have holen : t.olen.toNat = ceil8 (frameLength s.ilen.toNat) := by
    rw [hc.olen, length_encryptBytes, length_input]
  have hmin : 8 ≤ ceil8 (frameLength s.ilen.toNat) := by
    unfold ceil8 frameLength frameBlocks
    omega
  have hmax : ceil8 (frameLength s.ilen.toNat) ≤ bufSize :=
    ceil8_le_bufSize ((frameLength_le hlen).trans (by decide))
  refine ⟨t, ht, hc, holen, hmin.trans_eq holen.symm, holen.trans_le hmax, fun j hle hlt => ?_⟩
  have hframe : (encBlocks s.perm (frame s.input)).length = frameLength s.ilen.toNat := by
    rw [length_encBlocks_frame, length_input]
  rw [hc.bytes j (hlt.trans_eq hc.olen)]
  exact getD_xorStream_of_length_le (hframe.trans_le hle) (by rwa [hframe, ← holen])

/-- Settles O38: the commit follows what Decrypt answers, which for an empty input is the first check's
code. -/
theorem decryptDecryptsOrFails : Obligations.DecryptDecryptsOrFails := by
  refine ⟨decode_encode .decrypt, fun s hm => ⟨fun orig hlen hd => ?_, fun e hlen hd => ?_,
    fun hzero => ?_, exec_decrypt_of_lt⟩⟩
  · obtain ⟨t, ht, hc, hmax⟩ := exec_decrypt_commitsString hm hlen hd
    exact ⟨t, ht, hc, hc.olen.trans_le hmax⟩
  · exact ⟨exec_decrypt_of_error hlen hd, unframe_error_cases hd⟩
  · have hlen : s.ilen.toNat = 0 := congrArg BitVec.toNat hzero
    have hinput : s.input = [] := List.eq_nil_of_length_eq_zero ((length_input s).trans hlen)
    exact exec_decrypt_of_error (by omega) (by rw [hinput, decryptBytes_nil])

/-- Settles O52: a ciphertext begins as itself. -/
theorem frameBoundedRoundTrip : Obligations.FrameBoundedRoundTrip :=
  fun _ _ _ hm => decryptBytes_frameBounded_of_take hm rfl

/-- Settles O53: DECRYPT's input is the ciphertext, by the tables and the key that made it. -/
theorem encryptThenDecryptReturnsTheMessage : Obligations.EncryptThenDecryptReturnsTheMessage := by
  intro s t u hms hmu hlen hpolicy hkey htables ht hinput
  obtain ⟨t', ht', hct⟩ := exec_encrypt_commitsString hms hlen
  obtain rfl : t = t' := Host.Outcome.next.inj (ht.symm.trans ht')
  have hmsg : s.input.length ≤ 255 := (length_input s).trans_le hlen
  have hcipher : u.input = encryptBytes s.perm s.key s.input := hinput.trans hct.output_eq
  have hfit : u.ilen.toNat ≤ 264 := by
    rw [← length_input, hcipher]
    exact length_encryptBytes_le hmsg
  have hdec : decryptBytes u.policy u.perm u.key u.input = .ok s.input := by
    rw [hpolicy, State.perm_congr htables hkey, hkey, hcipher]
    exact frameBoundedRoundTrip s.perm s.key s.input hmsg
  obtain ⟨v, hv, hcv, -⟩ := exec_decrypt_commitsString hmu hfit hdec
  exact ⟨v, hv, hcv.err_eq, hcv.output_eq⟩

/-- Settles O54: the padding's complete groups are decoded behind the frame, and it passes the validator
only if there are none. -/
theorem literalRoundTrip : Obligations.LiteralRoundTrip := by
  refine ⟨fun p key m hm => ⟨no_padding_group_iff _, ?_⟩, by decide⟩
  rw [decryptBytes_literal_encryptBytes]
  split_ifs with hgood
  · rw [(decAll_padding_eq_nil_iff p _).mpr hgood, List.append_nil, unframe_frame hm]
  · exact unframe_frame_append hm (mt (decAll_padding_eq_nil_iff p _).mp hgood)

/-- Settles O55: equal first bytes stay equal through the stream XOR, and FRAME_BOUNDED decodes no more. -/
theorem decryptIgnoresBytesBeyondTheFrame : Obligations.DecryptIgnoresBytesBeyondTheFrame := by
  refine ⟨fun p key c c' l hlen hbyte htake => ?_,
    fun p key m c hm => decryptBytes_frameBounded_of_take hm⟩
  rw [decryptBytes, decryptBytes,
    groups_frameBounded_congr hbyte (take_xorStream_congr key hlen htake)]

/-- Settles O26: the success commit without string and RESULT, and the words of opcode 0. -/
theorem nopSetsOnlyErr : Obligations.NopSetsOnlyErr := by
  refine ⟨exec_nop, fun w => ⟨fun h => (encode_of_decode h).symm, ?_⟩,
    fun w hop himm s hp hd hcmd => ?_⟩
  · rintro rfl
    exact decode_encode .nop
  · have hillegal : (opField w).toNat ∉ [1, 2, 3, 4] ∧ immField w ≠ 0#24 := ⟨by simp [hop], himm⟩
    obtain ⟨-, -, hstep⟩ := illegalWordsRaiseIllegalCommand.2 s w (.inr hillegal)
    exact (hstep hp hd hcmd).1

end Sys2Proof.Proofs
end

section
/-! SUPPORT. The host adapter (spec 44_host_adapter.md): the hexadecimal digits, what KeyParse and
CipherParse answer, and the source's hash string and groups as bytes. -/

namespace Sys2Proof.Machine

variable {c : Char} {t : List Char} {ds : List Nat} {k : Key} {bs : List Byte} {e : ErrCode}

/-! The characters that are digits (R190, R192). -/

/-- What holds of `m` characters from code `a` on, one by one, holds of every character with such a code. -/
theorem of_forall_codes {P : Char → Prop} {a m : Nat} (h : ∀ n < m, P (Char.ofNat (a + n)))
    (hlo : a ≤ c.toNat) (hhi : c.toNat < a + m) : P c := by
  have hc := h (c.toNat - a) (by omega)
  rwa [Nat.add_sub_cancel' hlo, Char.ofNat_toNat] at hc

/-- A digit is one of R190's 22 characters: those of three ranges of codes. -/
theorem mem_digits_of_hexval {d : Nat} (h : hexval c = some d) :
    c ∈ "0123456789abcdefABCDEF".toList := by
  simp only [hexval] at h
  split_ifs at h with hdigit hlower hupper
  · exact of_forall_codes (P := (· ∈ "0123456789abcdefABCDEF".toList)) (a := 48) (m := 10) (by decide)
      hdigit.1 (by omega)
  · exact of_forall_codes (P := (· ∈ "0123456789abcdefABCDEF".toList)) (a := 97) (m := 6) (by decide)
      hlower.1 (by omega)
  · exact of_forall_codes (P := (· ∈ "0123456789abcdefABCDEF".toList)) (a := 65) (m := 6) (by decide)
      hupper.1 (by omega)

theorem hexval_isSome_iff (c : Char) :
    (hexval c).isSome = true ↔ c ∈ "0123456789abcdefABCDEF".toList := by
  have hdigits : "0123456789abcdefABCDEF".toList.all (fun c => (hexval c).isSome) = true := by decide
  refine ⟨fun h => ?_, List.all_eq_true.mp hdigits c⟩
  obtain ⟨d, hd⟩ := Option.isSome_iff_exists.mp h
  exact mem_digits_of_hexval hd

/-- A digit has the value of its lowercase; only 26 characters have another lowercase than themselves. -/
theorem hexval_toLower (c : Char) : hexval c.toLower = hexval c := by
  by_cases hc : 65 ≤ c.toNat ∧ c.toNat ≤ 90
  · exact of_forall_codes (P := fun c => hexval c.toLower = hexval c) (a := 65) (m := 26) (by decide)
      hc.1 (by omega)
  · have hself : c.toLower = c := dif_neg hc
    rw [hself]

theorem hexval_toUpper (c : Char) : hexval c.toUpper = hexval c := by
  by_cases hc : 97 ≤ c.toNat ∧ c.toNat ≤ 122
  · exact of_forall_codes (P := fun c => hexval c.toUpper = hexval c) (a := 97) (m := 26) (by decide)
      hc.1 (by omega)
  · have hself : c.toUpper = c := dif_neg hc
    rw [hself]

theorem hexChar_eq_getD : ∀ d < 16, hexChar d = "0123456789abcdef".toList.getD d ' ' := by decide

theorem hexChar_mem : ∀ d < 16, hexChar d ∈ "0123456789abcdef".toList := by decide

theorem hex2_eq_getD (b : Byte) : hex2 b = ["0123456789abcdef".toList.getD (b.toNat / 16) ' ',
    "0123456789abcdef".toList.getD (b.toNat % 16) ' '] := by
  rw [hex2, hexChar_eq_getD _ (by omega), hexChar_eq_getD _ (by omega)]

theorem mem_of_mem_hex2 {b : Byte} (h : c ∈ hex2 b) : c ∈ "0123456789abcdef".toList := by
  rw [hex2, List.mem_pair] at h
  obtain rfl | rfl := h
  · exact hexChar_mem _ (by omega)
  · exact hexChar_mem _ (by omega)

/-! Strings of digits (R190). -/

theorem exists_hexvals_iff : (∃ ds, hexvals t = some ds) ↔ ∀ c ∈ t, (hexval c).isSome = true := by
  induction t with
  | nil => simp [hexvals]
  | cons c rest ih =>
    rw [List.forall_mem_cons, ← ih, Option.isSome_iff_exists]
    simp only [hexvals_cons, Option.bind_eq_some_iff, Option.map_eq_some_iff]
    constructor
    · rintro ⟨-, d, hd, ds, hds, -⟩
      exact ⟨⟨d, hd⟩, ds, hds⟩
    · rintro ⟨⟨d, hd⟩, ds, hds⟩
      exact ⟨_, d, hd, ds, hds, rfl⟩

theorem hexvals_eq_none_iff : hexvals t = none ↔ ∃ c ∈ t, hexval c = none := by
  rw [← not_iff_not, ← Ne.eq_def, Option.ne_none_iff_exists', exists_hexvals_iff]
  push Not
  simp only [Option.isSome_iff_ne_none]

/-- Replacing each character by one of the same value leaves the digits. -/
theorem hexvals_map {f : Char → Char} (h : ∀ c, hexval (f c) = hexval c) (t : List Char) :
    hexvals (t.map f) = hexvals t := by
  induction t with
  | nil => rfl
  | cons c rest ih => rw [List.map_cons, hexvals_cons, hexvals_cons, h, ih]

theorem hexval_getD (h : hexvals t = some ds) {j : Nat} (hj : j < ds.length) :
    hexval (t.getD j ' ') = some (ds.getD j 0) := by
  have hjt : j < t.length := (length_of_hexvals h) ▸ hj
  have hmap := congrArg (·[j]?) (hexvals_eq_some_iff.mp h)
  simpa [hj, hjt] using hmap

/-- A digit of a big-endian number by the number of digits after it (R190). -/
theorem digitsValue_div_mod (pre : List Nat) {d : Nat} {post : List Nat} (hd : d < 16)
    (hpost : ∀ e ∈ post, e < 16) :
    digitsValue (pre ++ d :: post) / 16 ^ post.length % 16 = d := by
  rw [List.append_cons, digitsValue_append_div _ hpost, digitsValue_concat]
  omega

/-- A digit of a big-endian number by its position. -/
theorem getD_eq_digitsValue_div_mod (h : ∀ d ∈ ds, d < 16) {j : Nat} (hj : j < ds.length) :
    ds.getD j 0 = digitsValue ds / 16 ^ (ds.length - 1 - j) % 16 := by
  have hsplit : ds.take j ++ ds[j] :: ds.drop (j + 1) = ds := by simp
  have hplace : (ds.drop (j + 1)).length = ds.length - 1 - j := by
    rw [List.length_drop]
    omega
  have hpost : ∀ e ∈ ds.drop (j + 1), e < 16 := fun e he => h e (List.mem_of_mem_drop he)
  have hdigit := digitsValue_div_mod (ds.take j) (h _ (List.getElem_mem hj)) hpost
  rw [hsplit, hplace] at hdigit
  rw [List.getD_eq_getElem _ _ hj, hdigit]

/-- The last `n` digits of a number, read back (R190). -/
theorem digitsValue_digits (n v : Nat) :
    digitsValue ((List.range n).map fun j => v / 16 ^ (n - 1 - j) % 16) = v % 16 ^ n := by
  induction n generalizing v with
  | zero => simp [digitsValue, Nat.mod_one]
  | succ n ih =>
    have hhigh : (List.range n).map (fun j => v / 16 ^ (n - j) % 16) =
        (List.range n).map fun j => v / 16 / 16 ^ (n - 1 - j) % 16 := by
      refine List.map_congr_left fun j hj => ?_
      have hlt : j < n := List.mem_range.mp hj
      rw [show n - j = n - 1 - j + 1 by omega, Nat.pow_succ', Nat.div_div_eq_div_mul]
    rw [List.range_succ, List.map_append, List.map_singleton, digitsValue_concat]
    simp only [Nat.add_sub_cancel, Nat.sub_self, Nat.pow_zero, Nat.div_one]
    rw [hhigh, ih, Nat.pow_succ', Nat.mod_mul, Nat.add_comm]

/-! KeyParse (R190, R191). -/

theorem keyParse_eq_ok_iff : keyParse t = .ok k ↔
    t.length = 16 ∧ ∃ ds, hexvals t = some ds ∧ BitVec.ofNat 64 (digitsValue ds) = k := by
  unfold keyParse
  cases h : hexvals t with
  | none => simp
  | some ds => by_cases hlen : t.length = 16 <;> simp [hlen]

theorem keyParse_error (h : keyParse t = .error e) : e = .malformedKey := by
  unfold keyParse at h
  split at h
  · split at h
    · cases h
    · exact (Except.error.inj h).symm
  · exact (Except.error.inj h).symm

theorem keyParse_map {f : Char → Char} (h : ∀ c, hexval (f c) = hexval c) (t : List Char) :
    keyParse (t.map f) = keyParse t := by
  rw [keyParse, keyParse, hexvals_map h, List.length_map]

/-- Each character of a key string is the key's digit of its place (R190). -/
theorem hexval_getD_of_keyParse (h : keyParse t = .ok k) {j : Nat} (hj : j < 16) :
    hexval (t.getD j ' ') = some (k.toNat / 16 ^ (15 - j) % 16) := by
  obtain ⟨hlen, ds, hds, rfl⟩ := keyParse_eq_ok_iff.mp h
  have hcount : ds.length = 16 := (length_of_hexvals hds).trans hlen
  have hdigits : ∀ d ∈ ds, d < 16 := lt_of_mem_hexvals hds
  have hfit : digitsValue ds < 2 ^ 64 := (digitsValue_lt hdigits).trans_eq (by simp [hcount])
  have hjds : j < ds.length := hj.trans_eq hcount.symm
  rw [hexval_getD hds hjds, getD_eq_digitsValue_div_mod hdigits hjds, hcount, BitVec.toNat_ofNat,
    Nat.mod_eq_of_lt hfit]

theorem hexvals_srcFormat (v : Key) :
    hexvals (srcFormat v) = some ((List.range 16).map fun j => v.toNat / 16 ^ (15 - j) % 16) := by
  rw [hexvals_eq_some_iff, srcFormat, List.map_map, List.map_map]
  exact List.map_congr_left fun j _ => hexval_hexChar _ (Nat.mod_lt _ (by decide))

theorem keyParse_srcFormat (v : Key) : keyParse (srcFormat v) = .ok v := by
  refine keyParse_eq_ok_iff.mpr ⟨by simp [srcFormat], _, hexvals_srcFormat v, ?_⟩
  have hlt : v.toNat < 16 ^ 16 := v.isLt
  rw [digitsValue_digits 16, Nat.mod_eq_of_lt hlt, BitVec.ofNat_toNat, BitVec.setWidth_eq]

/-! CipherParse (R193). -/

theorem cipherParse_of_hexvals (h : hexvals t = some ds) : cipherParse t =
    if 264 < (pairBytes (evenDigits ds)).length then .error .badArgument
    else .ok (pairBytes (evenDigits ds)) := by
  rw [cipherParse, h]
  rfl

theorem cipherParse_of_le (h : hexvals t = some ds) (hbs : pairBytes (evenDigits ds) = bs)
    (hlen : bs.length ≤ 264) : cipherParse t = .ok bs := by
  rw [cipherParse_of_hexvals h, hbs, if_neg (Nat.not_lt.mpr hlen)]

theorem cipherParse_of_lt (h : hexvals t = some ds) (hbs : pairBytes (evenDigits ds) = bs)
    (hlen : 264 < bs.length) : cipherParse t = .error .badArgument := by
  rw [cipherParse_of_hexvals h, hbs, if_pos hlen]

theorem cipherParse_of_hexvals_eq_none (h : hexvals t = none) :
    cipherParse t = .error .malformedCiphertext := by
  simp only [cipherParse, h]

/-- What CipherParse accepts is a string of digits, of at most 264 bytes. -/
theorem hexvals_of_cipherParse (h : cipherParse t = .ok bs) :
    bs.length ≤ 264 ∧ ∃ ds, hexvals t = some ds ∧ pairBytes (evenDigits ds) = bs := by
  cases hds : hexvals t with
  | none => cases (cipherParse_of_hexvals_eq_none hds).symm.trans h
  | some ds =>
    rw [cipherParse_of_hexvals hds] at h
    split_ifs at h with hlen
    obtain rfl := Except.ok.inj h
    exact ⟨Nat.not_lt.mp hlen, ds, rfl, rfl⟩

theorem cipherParse_map {f : Char → Char} (h : ∀ c, hexval (f c) = hexval c) (t : List Char) :
    cipherParse (t.map f) = cipherParse t := by
  rw [cipherParse, cipherParse, hexvals_map h]

theorem evenDigits_of_even (h : ds.length % 2 = 0) : evenDigits ds = ds := if_pos h

theorem evenDigits_of_odd (h : ds.length % 2 = 1) : evenDigits ds = ds ++ [0] :=
  if_neg (by omega)

/-- Appending the '0' that CipherParse appends to an odd string changes nothing. -/
theorem cipherParse_append_zero (hodd : t.length % 2 = 1) :
    cipherParse (t ++ ['0']) = cipherParse t := by
  cases h : hexvals t with
  | none =>
    obtain ⟨c, hmem, hc⟩ := hexvals_eq_none_iff.mp h
    have hall : hexvals (t ++ ['0']) = none :=
      hexvals_eq_none_iff.mpr ⟨c, List.mem_append_left _ hmem, hc⟩
    rw [cipherParse_of_hexvals_eq_none h, cipherParse_of_hexvals_eq_none hall]
  | some ds =>
    have hds : ds.length % 2 = 1 := by rwa [length_of_hexvals h]
    have hall : hexvals (t ++ ['0']) = some (ds ++ [0]) := hexvals_append_zeros h 1
    have heven : (ds ++ [0]).length % 2 = 0 := by
      rw [List.length_append, List.length_singleton]
      omega
    rw [cipherParse_of_hexvals h, cipherParse_of_hexvals hall, evenDigits_of_odd hds,
      evenDigits_of_even heven]

/-- Each byte is made of two digits, the high one first (R193). -/
theorem getD_pairBytes {j : Nat} (hj : j < ds.length / 2) :
    (pairBytes ds).getD j 0#8 = BitVec.ofNat 8 (16 * ds.getD (2 * j) 0 + ds.getD (2 * j + 1) 0) := by
  induction ds using pairBytes.induct generalizing j with
  | case1 h l rest ih =>
    cases j with
    | zero => rfl
    | succ j =>
      simp only [List.length_cons] at hj
      exact ih (by omega)
  | case2 ds hds =>
    have hlen : ds.length < 2 := length_lt_two hds
    omega

theorem nibbles_getD_pairBytes (h : ∀ d ∈ ds, d < 16) {j : Nat} (hj : j < ds.length / 2) :
    ((pairBytes ds).getD j 0#8).toNat / 16 = ds.getD (2 * j) 0 ∧
      ((pairBytes ds).getD j 0#8).toNat % 16 = ds.getD (2 * j + 1) 0 := by
  have hdigit : ∀ i < ds.length, ds.getD i 0 < 16 := fun i hi => by
    rw [List.getD_eq_getElem _ _ hi]
    exact h _ (List.getElem_mem hi)
  have hhigh := hdigit (2 * j) (by omega)
  have hlow := hdigit (2 * j + 1) (by omega)
  rw [getD_pairBytes hj, BitVec.toNat_ofNat]
  omega

/-- The two characters of a byte are its high and its low digit (R193). -/
theorem hexval_pair (h : hexvals t = some ds) {j : Nat} (hj : j < ds.length / 2) :
    hexval (t.getD (2 * j) ' ') = some (((pairBytes ds).getD j 0#8).toNat / 16) ∧
      hexval (t.getD (2 * j + 1) ' ') = some (((pairBytes ds).getD j 0#8).toNat % 16) := by
  obtain ⟨hhigh, hlow⟩ := nibbles_getD_pairBytes (lt_of_mem_hexvals h) hj
  rw [hhigh, hlow]
  exact ⟨hexval_getD h (by omega), hexval_getD h (by omega)⟩

/-! The hex form (R192). -/

@[simp] theorem length_hex (bs : List Byte) : (hex bs).length = 2 * bs.length := by
  simp [hex, hex2, List.length_flatMap, Nat.mul_comm]

theorem pairBytes_evenDigits_hexDigits (bs : List Byte) : pairBytes (evenDigits (hexDigits bs)) = bs := by
  rw [evenDigits_hexDigits, pairBytes_hexDigits]

/-! The source's strings as bytes (R103, R104, R107, R195). -/

/-- The hash string is the hex of the encoded blocks (R103, R106). -/
theorem srcHashString_eq_hex (p : Perm24) (bs : List Byte) :
    srcHashString p bs = hex (encBlocks p bs) := by
  induction bs using encBlocks.induct with
  | case1 b0 b1 b2 rest ih =>
    rw [srcHashString, ih, encBlocks, hex_append]
    rfl
  | case2 bs hbs =>
    rw [srcHashString, encBlocks]
    · rfl
    · exact hbs
    · exact hbs

theorem srcEncrypt_eq_hex (p : Perm24) (key : Key) (m : List Byte) :
    srcEncrypt p key m = hex (encryptBytes p key m) := by
  rw [srcEncrypt, srcHashString_eq_hex, srcStreamXor_of_hexvals key (hexvals_hex _),
    pairBytes_evenDigits_hexDigits, encryptBytes]

/-- Six characters read big-endian are the group of their three bytes (R104). -/
theorem ofNat_srcHexInt_hex (h0 h1 h2 : Byte) :
    BitVec.ofNat 24 (srcHexInt (hex [h0, h1, h2])) = groupInt h0 h1 h2 := by
  rw [srcHexInt_of_hexvals (hexvals_hex _), groupInt, join24_eq_ofNat]
  congr 1
  simp only [digitsValue, hexDigits, List.flatMap_cons, List.flatMap_nil, List.cons_append,
    List.nil_append, List.foldl_cons, List.foldl_nil]
  omega

theorem srcGroupInts_hex_cons (n : Nat) (h0 h1 h2 : Byte) (rest : List Byte) :
    srcGroupInts (n + 1) (hex (h0 :: h1 :: h2 :: rest)) =
      groupInt h0 h1 h2 :: srcGroupInts n (hex rest) := by
  rw [← ofNat_srcHexInt_hex]
  rfl

/-- The complete groups of a hex string (R107). -/
def hexGroups (bs : List Byte) : List Word24 := srcGroupInts ((hex bs).length / 6) (hex bs)

theorem hexGroups_cons (h0 h1 h2 : Byte) (rest : List Byte) :
    hexGroups (h0 :: h1 :: h2 :: rest) = groupInt h0 h1 h2 :: hexGroups rest := by
  have hcount : (hex (h0 :: h1 :: h2 :: rest)).length / 6 = (hex rest).length / 6 + 1 :=
    Nat.add_div_right (hex rest).length (Nat.succ_pos 5)
  rw [hexGroups, hcount, srcGroupInts_hex_cons, hexGroups]

theorem hexGroups_of_short (h : bs.length < 3) : hexGroups bs = [] := by
  have hcount : (hex bs).length / 6 = 0 := Nat.div_eq_of_lt (by rw [length_hex]; omega)
  rw [hexGroups, hcount, srcGroupInts]

/-- The first `n` complete groups through getOriginal are DecBlocks (R104, R107). -/
theorem flatMap_take_hexGroups (p : Perm24) (n : Nat) (bs : List Byte) :
    ((hexGroups bs).take n).flatMap (getOriginal p) = decBlocks p n bs := by
  induction n, bs using decBlocks.induct with
  | case1 n h0 h1 h2 rest ih =>
    rw [hexGroups_cons, List.take_succ_cons, List.flatMap_cons, ih, decBlocks, decGroup]
  | case2 n bs hbs =>
    have hzero : min n (bs.length / 3) = 0 := min_groups_eq_zero hbs
    rw [decBlocks_eq_nil p hzero]
    obtain hn | hshort : n = 0 ∨ bs.length < 3 := by omega
    · rw [hn, List.take_zero, List.flatMap_nil]
    · rw [hexGroups_of_short hshort, List.take_nil, List.flatMap_nil]

theorem length_srcGroupInts (n : Nat) (t : List Char) : (srcGroupInts n t).length = n := by
  induction n generalizing t with
  | zero => rfl
  | succ n ih => rw [srcGroupInts, List.length_cons, ih]

theorem srcWorkingBuffer_literal_hex (p : Perm24) (bs : List Byte) :
    srcWorkingBuffer .literal p (hex bs) = decAll p bs := by
  have hcount : (hexGroups bs).length = bs.length / 3 := by
    rw [hexGroups, length_srcGroupInts, length_hex]
    omega
  rw [decAll, ← flatMap_take_hexGroups, List.take_of_length_le hcount.le]
  rfl

/-- The length byte that FRAME_BOUNDED takes is the low byte of INV at the first group (R104, R176). -/
theorem srcWorkingBuffer_frameBounded_of_groups (p : Perm24) {g : Word24} {rest : List Word24}
    (h : srcGroupInts (t.length / 6) t = g :: rest) :
    srcWorkingBuffer .frameBounded p t =
      ((g :: rest).take (frameBlocks (byteLo (p.symm (bswap24 g))).toNat)).flatMap (getOriginal p) := by
  simp only [srcWorkingBuffer, h]
  rfl

theorem srcWorkingBuffer_frameBounded_of_no_group (p : Perm24)
    (h : srcGroupInts (t.length / 6) t = []) : srcWorkingBuffer .frameBounded p t = [] := by
  simp only [srcWorkingBuffer, h]

theorem srcWorkingBuffer_frameBounded_hex (p : Perm24) (bs : List Byte) :
    srcWorkingBuffer .frameBounded p (hex bs) = groups .frameBounded p bs := by
  induction bs using encBlocks.induct with
  | case1 h0 h1 h2 rest =>
    have hbyte : lengthByte p (h0 :: h1 :: h2 :: rest) =
        some (byteLo (p.symm (bswap24 (groupInt h0 h1 h2)))) := rfl
    have hgroups := hexGroups_cons h0 h1 h2 rest
    rw [srcWorkingBuffer_frameBounded_of_groups p hgroups, groups_frameBounded hbyte, ← hgroups,
      flatMap_take_hexGroups]
  | case2 bs hbs =>
    have hbyte : lengthByte p bs = none := by
      rw [lengthByte]
      exact hbs
    rw [srcWorkingBuffer_frameBounded_of_no_group p (hexGroups_of_short (length_lt_three hbs)), groups,
      hbyte]

theorem srcWorkingBuffer_hex (policy : DecodePolicy) (p : Perm24) (bs : List Byte) :
    srcWorkingBuffer policy p (hex bs) = groups policy p bs := by
  cases policy with
  | literal => exact srcWorkingBuffer_literal_hex p bs
  | frameBounded => exact srcWorkingBuffer_frameBounded_hex p bs

theorem srcDecrypt_of_cipherParse (policy : DecodePolicy) (p : Perm24) (key : Key)
    (h : cipherParse t = .ok bs) : srcDecrypt policy p key t = decryptBytes policy p key bs := by
  obtain ⟨-, ds, hds, rfl⟩ := hexvals_of_cipherParse h
  rw [srcDecrypt, srcStreamXor_of_hexvals key hds, srcWorkingBuffer_hex, decryptBytes]

end Sys2Proof.Machine
end

section
/-! SUPPORT. The obligations on the host adapter (spec 44_host_adapter.md), from the laws above. -/

namespace Sys2Proof.Proofs

open Sys2Proof.Machine

/-- Settles O56: the digits of the parsed number are those of the string, and those of a key give it back. -/
theorem keyParseReadsSixteenDigits : Obligations.KeyParseReadsSixteenDigits := by
  refine ⟨fun s => ?_, fun s k hk j => hexval_getD_of_keyParse hk, fun s hs => ?_,
    fun k => ⟨keyParse_srcFormat k, ?_⟩⟩
  · rw [← exists_hexvals_iff]
    simp only [keyParse_eq_ok_iff]
    exact ⟨fun ⟨k, hlen, ds, hds, _⟩ => ⟨hlen, ds, hds⟩,
      fun ⟨hlen, ds, hds⟩ => ⟨_, hlen, ds, hds, rfl⟩⟩
  · have herr : keyParse s = .error .malformedKey := by
      cases h : keyParse s with
      | ok k => exact absurd h (hs k)
      | error e => rw [keyParse_error h]
    exact ⟨herr, fun clearOvr => by simp only [bootOps, herr]⟩
  · rw [keyParse_map hexval_toUpper, keyParse_srcFormat]

/-- Settles O57: CipherParse depends on the digits' values alone, and makes a byte of each two. -/
theorem cipherParseReadsTheHexForm : Obligations.CipherParseReadsTheHexForm := by
  refine ⟨fun s => ⟨length_hex s, cipherParse_of_le (hexvals_hex s) (pairBytes_evenDigits_hexDigits s),
      cipherParse_of_lt (hexvals_hex s) (pairBytes_evenDigits_hexDigits s)⟩,
    fun t ht heven => ?_, fun t u htu => ?_, fun t hodd => (cipherParse_append_zero hodd).symm,
    fun t ht => cipherParse_of_hexvals_eq_none (hexvals_eq_none_iff.mpr ht),
    fun b => ⟨hex2_eq_getD b, fun c => mem_of_mem_hex2⟩, by decide, hexval_isSome_iff⟩
  · obtain ⟨ds, hds⟩ := exists_hexvals_iff.mpr ht
    rw [← length_of_hexvals hds] at heven ⊢
    have hbs : pairBytes (evenDigits ds) = pairBytes ds := by rw [evenDigits_of_even heven]
    have hcount : (pairBytes ds).length = ds.length / 2 := length_pairBytes ds
    exact ⟨fun hle => ⟨_, cipherParse_of_le hds hbs (hcount.trans_le hle), hcount,
        fun j hj => hexval_pair hds (hj.trans_eq hcount)⟩,
      fun hlt => cipherParse_of_lt hds hbs (hlt.trans_eq hcount.symm)⟩
  · rw [← cipherParse_map hexval_toLower t, htu, cipherParse_map hexval_toLower]

/-- Settles O59: the source's strings are the hex of the bytes that ENCRYPT and DECRYPT work on. -/
theorem sourceStringFormsAgree : Obligations.SourceStringFormsAgree := by
  refine ⟨fun s t hm hlen ht => ?_, fun s t text hm hparse ht => ?_⟩
  · obtain ⟨t', ht', hc⟩ := exec_encrypt_commitsString hm hlen
    obtain rfl : t = t' := Host.Outcome.next.inj (ht.symm.trans ht')
    rw [cipherFormat, hc.output_eq, srcEncrypt_eq_hex]
  · obtain ⟨hmax, -⟩ := hexvals_of_cipherParse hparse
    have hlen : s.ilen.toNat ≤ 264 := by rwa [length_input] at hmax
    rw [srcDecrypt_of_cipherParse s.policy s.perm s.key hparse]
    refine ⟨fun orig hd => ?_, fun e hd => ?_⟩
    · obtain ⟨t', ht', hc, -⟩ := exec_decrypt_commitsString hm hlen hd
      obtain rfl : t = t' := Host.Outcome.next.inj (ht.symm.trans ht')
      exact ⟨hc.err_eq, hc.output_eq⟩
    · obtain rfl : t = afterError e s :=
        Host.Outcome.next.inj (ht.symm.trans (exec_decrypt_of_error hlen hd))
      exact ⟨rfl, rfl⟩

end Sys2Proof.Proofs
end

section
/-! SUPPORT. How a command ends (spec 60_exceptions.md): the lengths that a command refuses, the error it
may end in for each reason, and what an error commit leaves. -/

namespace Sys2Proof.Machine

variable {s t : State} {i : Instr}

/-! The two commits, by ERR (R204, R205). -/

theorem BlockError.eq_raiseErr (h : BlockError s t) : t = raiseErr t.err s := by
  obtain ⟨e, -, -, rfl⟩ := h
  rfl

theorem BlockSuccess.err_eq (h : BlockSuccess i s t) : t.err = .ok := by
  obtain ⟨out, res, rfl, -⟩ := h
  exact commitOk_err out res s

theorem eq_raiseErr_of_exec (h : exec i s = .next t) (hne : t.err ≠ .ok) : t = raiseErr t.err s := by
  obtain herr | hok := exec_cases h
  · exact herr.eq_raiseErr
  · exact absurd hok.err_eq hne

theorem eq_raiseErr_of_commandStep (h : commandStep s = .next t) (hne : t.err ≠ .ok) :
    t = raiseErr t.err s := by
  obtain ⟨t', ht', hc⟩ := commandStep_commits s
  obtain rfl : t = t' := Host.Outcome.next.inj (h.symm.trans ht')
  obtain herr | ⟨i, -, hok⟩ := hc
  · exact herr.eq_raiseErr
  · exact absurd hok.err_eq hne

/-! The codes a command may end in (R200, R201). -/

/-- The values of ILEN that a command's row of R201 refuses. -/
def BadLength : Instr → Nat → Prop
  | .encblk, n => 264 < n ∨ n % 3 ≠ 0
  | .decblk, n | .xorks, n | .csum, n | .unframe, n | .decrypt, n => 264 < n
  | .frame, n | .encrypt, n => 255 < n
  | .nop, _ | .rdfwd _, _ | .rdinv _, _ | .getcode _ _ _, _ | .getorig _, _ => False

/-- The codes of the checks of R154. -/
def ErrCode.OfValidation (e : ErrCode) : Prop :=
  e = .invalidLength ∨ e = .invalidPadding ∨ e = .checksumMismatch

theorem exec_of_badLength (h : BadLength i s.ilen.toNat) :
    exec i s = .next (raiseErr .badArgument s) := by
  cases i with
  | encblk => exact exec_encblk_of_bad_length h
  | decblk => exact exec_decblk_of_lt h
  | xorks => exact exec_xorks_of_lt h
  | csum => exact exec_csum_of_lt h
  | frame => exact exec_frame_of_lt h
  | unframe => exact exec_unframe_of_lt h
  | encrypt => exact exec_encrypt_of_lt h
  | decrypt => exact exec_decrypt_of_lt h
  | nop => exact h.elim
  | rdfwd i => exact h.elim
  | rdinv c => exact h.elim
  | getcode x y z => exact h.elim
  | getorig g => exact h.elim

/-- A commit of what Unframe answers ends in success or in the code of a check. -/
theorem commitString_unframe_err (d : List Byte) (s : State) :
    (commitString (unframe d) s).err = .ok ∨ (commitString (unframe d) s).err.OfValidation := by
  cases hu : unframe d with
  | ok out => exact .inl (commitOk_err (some out) none s)
  | error e => exact .inr (unframe_error_cases hu)

/-- On a length of its row a command succeeds, or it is UNFRAME or DECRYPT and a check fails. -/
theorem exec_of_goodLength (h : ¬BadLength i s.ilen.toNat) : ∃ t, exec i s = .next t ∧
    (t.err = .ok ∨ t.err.OfValidation ∧ (i = .unframe ∨ i = .decrypt)) := by
  cases i with
  | nop => exact ⟨_, rfl, .inl (commitOk_err _ _ s)⟩
  | rdfwd i => exact ⟨_, rfl, .inl (commitOk_err _ _ s)⟩
  | rdinv c => exact ⟨_, rfl, .inl (commitOk_err _ _ s)⟩
  | getcode x y z => exact ⟨_, rfl, .inl (commitOk_err _ _ s)⟩
  | getorig g => exact ⟨_, rfl, .inl (commitOk_err _ _ s)⟩
  | encblk =>
    obtain ⟨hlen, h3⟩ := not_or.mp h
    exact ⟨_, exec_encblk_of_blocks (Nat.le_of_not_lt hlen) (not_not.mp h3),
      .inl (commitOk_err _ _ s)⟩
  | decblk => exact ⟨_, exec_decblk_of_le (Nat.le_of_not_lt h), .inl (commitOk_err _ _ s)⟩
  | xorks => exact ⟨_, exec_xorks_of_le (Nat.le_of_not_lt h), .inl (commitOk_err _ _ s)⟩
  | csum => exact ⟨_, exec_csum_of_le (Nat.le_of_not_lt h), .inl (commitOk_err _ _ s)⟩
  | frame => exact ⟨_, exec_frame_of_le (Nat.le_of_not_lt h), .inl (commitOk_err _ _ s)⟩
  | encrypt => exact ⟨_, exec_encrypt_of_le (Nat.le_of_not_lt h), .inl (commitOk_err _ _ s)⟩
  | unframe =>
    exact ⟨_, exec_unframe_of_le (Nat.le_of_not_lt h),
      (commitString_unframe_err _ s).imp_right fun he => ⟨he, .inl rfl⟩⟩
  | decrypt =>
    exact ⟨_, exec_decrypt_of_le (Nat.le_of_not_lt h),
      (commitString_unframe_err _ s).imp_right fun he => ⟨he, .inr rfl⟩⟩

/-- The ends of a command, by the reason for its ERR. -/
inductive CommandEnd (i : Instr) (s t : State) : Prop
  /-- The length check of R201. -/
  | badLength (hbad : BadLength i s.ilen.toNat) (ht : t.err = .badArgument)
  /-- A check of R154. -/
  | invalid (hgood : ¬BadLength i s.ilen.toNat) (ht : t.err.OfValidation)
      (hi : i = .unframe ∨ i = .decrypt)
  | success (hgood : ¬BadLength i s.ilen.toNat) (ht : t.err = .ok)

theorem exec_end (h : exec i s = .next t) : CommandEnd i s t := by
  by_cases hbad : BadLength i s.ilen.toNat
  · obtain rfl : t = raiseErr .badArgument s :=
      Host.Outcome.next.inj (h.symm.trans (exec_of_badLength hbad))
    exact .badLength hbad rfl
  · obtain ⟨t', ht', hend⟩ := exec_of_goodLength hbad
    obtain rfl : t = t' := Host.Outcome.next.inj (h.symm.trans ht')
    obtain hok | ⟨herr, hi⟩ := hend
    · exact .success hbad hok
    · exact .invalid hbad herr hi

theorem err_eq_badArgument_iff (h : exec i s = .next t) :
    t.err = .badArgument ↔ BadLength i s.ilen.toNat := by
  cases exec_end h with
  | badLength hbad ht => exact iff_of_true ht hbad
  | invalid hgood ht hi =>
    refine iff_of_false (fun hb => ?_) hgood
    simp [ErrCode.OfValidation, hb] at ht
  | success hgood ht => exact iff_of_false (by simp [ht]) hgood

/-! The same command again (R207). -/

/-- The error commit leaves all that a command reads, whatever is then in CMD and PEND. -/
theorem raiseErr_readAlike (e : ErrCode) (s : State) (w : Word) (pend : Bool) :
    ReadAlike s { raiseErr e s with cmd := w, pend := pend } :=
  ⟨rfl, rfl, rfl, rfl, rfl⟩

/-- A command that fails on one state fails with the same code on a state that it reads alike. -/
theorem exec_eq_raiseErr_of_readAlike {u : State} (hu : ReadAlike s u) (h : exec i s = .next t)
    (hne : t.err ≠ .ok) : exec i u = .next (raiseErr t.err u) := by
  obtain ⟨t', v, ht', hv, hc⟩ := exec_sameCommit i hu
  obtain rfl : t = t' := Host.Outcome.next.inj (h.symm.trans ht')
  obtain ⟨e, rfl, rfl⟩ | ⟨out, res, rfl, -⟩ := hc
  · exact hv
  · exact absurd (commitOk_err out res s) hne

end Sys2Proof.Machine
end

section
/-! SUPPORT. The obligations on errors (spec 60_exceptions.md), from the laws above. -/

namespace Sys2Proof.Proofs

open Sys2Proof.Machine

/-- Settles O7: every branch of the step, and every arm of `exec`, answers a next state. -/
theorem everyStepAnswersANextState : Obligations.EveryStepAnswersANextState :=
  ⟨fun s => (step_effect s).imp fun _ h => h.1, fun i s => (exec_commits i s).imp fun _ h => h.1⟩

/-- Settles O40: a commit whose ERR is not OK is the error commit. -/
theorem failedCommandChangesNothingElse : Obligations.FailedCommandChangesNothingElse :=
  ⟨fun _ _ _ => eq_raiseErr_of_exec, fun _ _ => eq_raiseErr_of_commandStep⟩

/-- Settles O41: the length check comes before all others, and no later check gives its code. -/
theorem badArgumentExactlyOnBadLengths : Obligations.BadArgumentExactlyOnBadLengths := by
  intro i s t h
  have hiff := err_eq_badArgument_iff h
  cases i <;> exact hiff

/-- Settles O42: the ends of a command, by the reason for its ERR. -/
theorem eachCodeIsRaisedOnlyWhereListed : Obligations.EachCodeIsRaisedOnlyWhereListed := by
  refine ⟨rfl, fun e => by cases e <;> decide, fun i s t h => ?_⟩
  cases exec_end h with
  | badLength _ ht => simp [ht]
  | success _ ht => simp [ht]
  | invalid _ ht hi =>
    refine ⟨fun _ => hi, ?_⟩
    obtain ht | ht | ht := ht <;> simp [ht]

/-- Settles O43: what a failed command leaves reads as the state it started from, so the command fails
again, and a second error commit changes nothing. -/
theorem failedCommandFailsAgain : Obligations.FailedCommandFailsAgain := by
  intro i s t w h hne
  obtain ⟨e, rfl⟩ : ∃ e, t = raiseErr e s := ⟨t.err, eq_raiseErr_of_exec h hne⟩
  exact ⟨rfl, exec_eq_raiseErr_of_readAlike (raiseErr_readAlike e s w true) h hne⟩

end Sys2Proof.Proofs
end

section
/-! SUPPORT. Reset and boot (spec 70_reset_and_hazards.md): the clean-entry state that the build step
leaves, what the reset event leaves, what a step makes of the key pins, and the host's boot order. -/

namespace Sys2Proof.Machine

variable {s t : State} {k : Key} {rest : List HostOp}

/-! The clean-entry state (R234). -/

/-- The block's registers and buffers in the clean-entry state (R234), which leaves OVR open. -/
structure State.CleanEntry (t : State) : Prop where
  phase : t.phase = .ready
  pend : t.pend = false
  cmd : t.cmd = 0#32
  err : t.err = .ok
  ilen : t.ilen = 0#9
  olen : t.olen = 0#9
  result : t.result = 0#24
  mem : t.mem = []

theorem State.CleanEntry.busy_eq (h : t.CleanEntry) : t.busy = false :=
  t.busy_eq_false_iff.mpr ⟨h.phase, h.pend⟩

theorem State.CleanEntry.ready_eq (h : t.CleanEntry) : t.ready = true := by
  simp [State.ready, h.phase]

theorem State.CleanEntry.memRead_status_eq (h : t.CleanEntry) :
    memRead t (portAddr 0x008) = if t.ovr then 0x00000006#32 else 0x00000002#32 := by
  rw [memRead_status, State.status, h.err, h.busy_eq, h.ready_eq]
  cases t.ovr <;> rfl

/-- The clean-entry state does not speak of OVR, nor of the world outside the block. -/
theorem State.CleanEntry.of_other_fields {ovr : Bool} {hostOps : List HostOp}
    {reads : List PortRead} (h : t.CleanEntry) :
    State.CleanEntry { t with ovr := ovr, hostOps := hostOps, reads := reads } :=
  { h with }

/-- With no byte listed, each byte of the buffers reads as zero (R38). -/
theorem ibuf_obuf_of_mem_nil (h : t.mem = []) (j : Nat) : t.ibuf j = 0x00#8 ∧ t.obuf j = 0x00#8 := by
  simp [State.ibuf, State.obuf, h, Memory.read, Memory.unlisted]

/-- The build step sets PHASE alone, and the invariant has kept all the rest clean. -/
theorem buildTables_cleanEntry (hs : s.Inv) (hp : s.phase = .constructing) :
    (buildTables s).CleanEntry := by
  obtain ⟨hcmd, herr, hilen, holen, hresult, hmem⟩ := hs.constructingClean hp
  have hd : s.pend = false := Bool.eq_false_iff.mpr fun hd => by simp [hs.pendOnlyReady hd] at hp
  exact ⟨rfl, hd, hcmd, herr, hilen, holen, hresult, hmem⟩

/-- The tables of the keyed instance are `PERM_OF(KEY)` (R31, R32). -/
theorem State.perm_of_keyed (h : s.tables = .keyed) : s.perm = Config.permOf s.key := by
  simp only [State.perm, h]

/-! The engine's turn with no command pending (R65). -/

theorem engineStep_constructing (hp : s.phase = .constructing) :
    engineStep s = .next (buildTables s) := by
  simp only [engineStep, hp]

theorem engineStep_idle (hp : s.phase = .ready) (hd : s.pend = false) : engineStep s = .next s := by
  simp [engineStep, hp, hd]

/-- On the engine's turn in construction the step is the build (R232). -/
theorem step_of_constructing (ha : nextAgent s = .engine) (hp : s.phase = .constructing) :
    step s = .next (buildTables s.popTurn) :=
  (step_of_engine ha).trans (engineStep_constructing hp)

/-! The reset event (R230). -/

theorem hostMove_reset (h : s.hostOps = .reset :: rest) :
    hostMove s = resetEvent { s with hostOps := rest } := by
  simp only [hostMove, h]

theorem resetEvent_memRead_status (s : State) :
    memRead (resetEvent s) (portAddr 0x008) = 0x00000001#32 := by
  have hbusy : (resetEvent s).busy = true := rfl
  have hready : (resetEvent s).ready = false := rfl
  rw [memRead_status, State.status, resetEvent_err, resetEvent_ovr, hready, hbusy]
  rfl

/-- The host's turn with a reset at the head of its list (R230). -/
theorem step_of_reset (ha : nextAgent s = .host) (h : s.hostOps = .reset :: rest) :
    step s = .next (resetEvent { s.popTurn with hostOps := rest }) := by
  rw [step_of_host ha, hostMove_reset (s := s.popTurn) h]

/-! The key pins (R231). -/

/-- `s` with another value on `key_in`. -/
def State.withPins (s : State) (k : Key) : State := { s with keyIn := k }

@[simp] theorem memRead_withPins (s : State) (k : Key) (a : PortAddr) :
    memRead (s.withPins k) a = memRead s a := by
  unfold memRead
  cases portReg a <;> rfl

theorem unlessBusy_withPins (s t : State) (k : Key) :
    unlessBusy (s.withPins k) (t.withPins k) = (unlessBusy s t).withPins k :=
  (apply_ite (State.withPins · k) (s.busy = true) { s with ovr := true } t).symm

theorem memWrite_withPins (s : State) (k : Key) (a : PortAddr) (v : Word) :
    memWrite (s.withPins k) a v = (memWrite s a v).withPins k := by
  unfold memWrite
  cases portReg a with
  | cmd => exact unlessBusy_withPins s { s with cmd := v, pend := true } k
  | ilen => exact unlessBusy_withPins s { s with ilen := v.extractLsb' 0 9 } k
  | ibuf w =>
    exact unlessBusy_withPins s { s with mem := s.mem.storeWord (ibufBase + 4 * w) v } k
  | status => cases v.getLsbD 2 <;> rfl
  | id | olen | result | config | obuf w | reserved => rfl

/-- The host's move, reset apart, leaves the pins as they are or drives them anew, whatever stands on
them. -/
theorem hostMove_withPins (hr : s.hostOps.head? ≠ some .reset) (k : Key) :
    ∃ k', hostMove (s.withPins k) = (hostMove s).withPins k' := by
  rcases hops : s.hostOps with - | ⟨op, rest⟩
  · have hops' : (s.withPins k).hostOps = [] := hops
    exact ⟨k, by simp only [hostMove, hops, hops']⟩
  · have hops' : (s.withPins k).hostOps = op :: rest := hops
    cases op with
    | wr a v =>
      rw [hostMove_wr hops, hostMove_wr hops']
      exact ⟨k, memWrite_withPins { s with hostOps := rest } k a v⟩
    | rd a =>
      rw [hostMove_rd hops, hostMove_rd hops', memRead_withPins]
      exact ⟨k, rfl⟩
    | rdEq a v =>
      rw [hostMove_rdEq hops, hostMove_rdEq hops', memRead_withPins]
      exact ⟨k, rfl⟩
    | poll =>
      rw [hostMove_poll hops, hostMove_poll hops', memRead_withPins]
      exact ⟨k, rfl⟩
    | readout =>
      rw [hostMove_readout hops, hostMove_readout hops', memRead_withPins]
      exact ⟨k, rfl⟩
    | driveKey k' =>
      rw [hostMove_driveKey hops, hostMove_driveKey hops']
      exact ⟨k', rfl⟩
    | reset => simp [hops] at hr

/-- No command reads the pins. -/
theorem readAlike_withPins (s : State) (k : Key) : ReadAlike s (s.withPins k) :=
  ⟨rfl, rfl, rfl, rfl, rfl⟩

/-- The same commit of two states that differ on the pins leaves two such states. -/
theorem SameCommit.eq_withPins {v : State} (h : SameCommit s (s.withPins k) t v) :
    v = t.withPins k := by
  obtain ⟨e, rfl, rfl⟩ | ⟨out, res, rfl, rfl⟩ := h
  · rfl
  · cases out <;> cases res <;> rfl

theorem exec_withPins {i : Instr} (h : exec i s = .next t) (k : Key) :
    exec i (s.withPins k) = .next (t.withPins k) := by
  obtain ⟨t', v, ht, hv, hc⟩ := exec_sameCommit i (readAlike_withPins s k)
  obtain rfl : t = t' := Host.Outcome.next.inj (h.symm.trans ht)
  rw [hv, hc.eq_withPins]

theorem commandStep_withPins (h : commandStep s = .next t) (k : Key) :
    commandStep (s.withPins k) = .next (t.withPins k) := by
  by_cases hlegal : ∃ i, decode s.cmd = .ok i
  · obtain ⟨i, hi⟩ := hlegal
    rw [commandStep_of_decode hi] at h
    exact (commandStep_of_decode (s := s.withPins k) hi).trans (exec_withPins h k)
  · have hill : ∀ i, decode s.cmd ≠ .ok i := not_exists.mp hlegal
    obtain rfl : raiseErr .illegalCommand s = t :=
      Host.Outcome.next.inj ((commandStep_of_illegal hill).symm.trans h)
    exact commandStep_of_illegal (s := s.withPins k) hill

theorem engineStep_withPins (h : engineStep s = .next t) (k : Key) :
    engineStep (s.withPins k) = .next (t.withPins k) := by
  cases hp : s.phase with
  | constructing =>
    obtain rfl : buildTables s = t :=
      Host.Outcome.next.inj ((engineStep_constructing hp).symm.trans h)
    exact engineStep_constructing (s := s.withPins k) hp
  | ready =>
    cases hd : s.pend with
    | true =>
      rw [engineStep_ready hp hd] at h
      exact (engineStep_ready (s := s.withPins k) hp hd).trans (commandStep_withPins h k)
    | false =>
      obtain rfl : s = t := Host.Outcome.next.inj ((engineStep_idle hp hd).symm.trans h)
      exact engineStep_idle (s := s.withPins k) hp hd

/-- Except at the reset event, what stands on the pins reaches nothing but the pins (R231). -/
theorem step_withPins (h : step s = .next t)
    (hr : ¬(nextAgent s = .host ∧ s.hostOps.head? = some .reset)) (k : Key) :
    ∃ k', step (s.withPins k) = .next (t.withPins k') := by
  cases ha : nextAgent s with
  | engine =>
    rw [step_of_engine ha] at h
    exact ⟨k, (step_of_engine (s := s.withPins k) ha).trans (engineStep_withPins h k)⟩
  | host =>
    obtain rfl : hostMove s.popTurn = t := Host.Outcome.next.inj ((step_of_host ha).symm.trans h)
    obtain ⟨k', hk⟩ := hostMove_withPins (s := s.popTurn) (fun hreset => hr ⟨ha, hreset⟩) k
    exact ⟨k', (step_of_host (s := s.withPins k) ha).trans (congrArg _ hk)⟩

/-- At the reset event KEY takes the value on the pins (R231). -/
theorem step_reset_key (h : step s = .next t) (ha : nextAgent s = .host)
    (hr : s.hostOps.head? = some .reset) : t.key = s.keyIn := by
  obtain ⟨rest, hops⟩ := List.head?_eq_some_iff.mp hr
  obtain rfl := Host.Outcome.next.inj ((step_of_reset ha hops).symm.trans h)
  rfl

/-! The boot order (R235). -/

theorem bootOps_of_keyParse {text : List Char} (h : keyParse text = .ok k) (clearOvr : Bool) :
    bootOps clearOvr text = .ok (.driveKey k :: .reset :: .poll :: clearOvrOps clearOvr) := by
  simp only [bootOps, h, List.cons_append, List.nil_append]

/-- `t` is a block booted with `k`, with no turn listed and `ops` still to come from the host. -/
structure Booted (k : Key) (ops : List HostOp) (t : State) : Prop extends t.CleanEntry where
  ovr : t.ovr = false
  key : t.key = k
  hostOps : t.hostOps = ops
  turns : t.turns = []

/-- With no turn listed an idle block's step is the host's move (log 6). -/
theorem step_of_idle (ht : s.turns = []) (hb : s.busy = false) : step s = .next (hostMove s) := by
  rw [step_of_host (nextAgent_of_idle ht hb), popTurn_of_no_turns ht]

/-- With no turn listed the engine builds right after the reset event (log 6). -/
theorem step_resetEvent (ht : s.turns = []) :
    step (resetEvent s) = .next (buildTables (resetEvent s)) := by
  have ha : nextAgent (resetEvent s) = .engine := by simp [nextAgent, ht, State.busy]
  rw [step_of_constructing ha rfl, popTurn_of_no_turns (s := resetEvent s) ht]

/-- `s` with `k` presented on the pins and `ops` still to come from the host (R235). -/
def State.presented (s : State) (k : Key) (ops : List HostOp) : State :=
  { s with keyIn := k, hostOps := ops }

theorem step_driveKey_of_idle (ht : s.turns = []) (hb : s.busy = false)
    (h : s.hostOps = .driveKey k :: rest) : step s = .next (s.presented k rest) := by
  rw [step_of_idle ht hb, hostMove_driveKey h]
  rfl

theorem step_reset_of_presented (ht : s.turns = []) (hb : s.busy = false) :
    step (s.presented k (.reset :: rest)) = .next (resetEvent (s.presented k rest)) := by
  rw [step_of_idle (s := s.presented k _) ht hb, hostMove_reset (s := s.presented k _) rfl]
  rfl

/-- Step 2 of the boot order, and the build that the engine then makes. -/
theorem run_driveKey_reset (ht : s.turns = []) (hb : s.busy = false)
    (h : s.hostOps = .driveKey k :: .reset :: rest) :
    ∃ t, core.run 3 s = .next t ∧ Booted k rest t := by
  have hreset : core.run 2 s = .next (resetEvent (s.presented k rest)) :=
    (run_succ_of_step (step_driveKey_of_idle ht hb h) 1).trans
      (run_succ_of_step (step_reset_of_presented ht hb) 0)
  exact ⟨_, run_succ_of_run hreset (step_resetEvent (s := s.presented k rest) ht),
    buildTables_cleanEntry (resetEvent_inv _) rfl, rfl, rfl, rfl, ht⟩

/-- Step 3 of the boot order: the block is ready, so the first `poll` is the last. -/
theorem Booted.step_poll (h : Booted k (.poll :: rest) s) :
    ∃ t, step s = .next t ∧ Booted k rest t := by
  rw [step_of_idle h.turns h.busy_eq, hostMove_poll h.hostOps, h.busy_eq]
  exact ⟨_, rfl, h.toCleanEntry.of_other_fields, h.ovr, h.key, rfl, h.turns⟩

/-- Step 4 of the boot order: OVR is clear already. -/
theorem Booted.step_clearOvr (h : Booted k (.wr (portAddr 0x008) 0x4#32 :: rest) s) :
    ∃ t, step s = .next t ∧ Booted k rest t := by
  rw [step_wr_of_idle h.turns h.busy_eq h.hostOps]
  exact ⟨_, rfl, h.toCleanEntry.of_other_fields, rfl, h.key, rfl, h.turns⟩

/-- The boot order's steps 2 to 4, with or without the optional one. -/
theorem run_bootOps (clearOvr : Bool) (ht : s.turns = []) (hb : s.busy = false)
    (h : s.hostOps = .driveKey k :: .reset :: .poll :: (clearOvrOps clearOvr ++ rest)) :
    ∃ t, core.run (if clearOvr then 5 else 4) s = .next t ∧ Booted k rest t := by
  obtain ⟨t₃, hrun₃, hbooted₃⟩ := run_driveKey_reset ht hb h
  obtain ⟨t₄, hpoll, hbooted₄⟩ := hbooted₃.step_poll
  have hrun₄ : core.run 4 s = .next t₄ := run_succ_of_run hrun₃ hpoll
  cases clearOvr with
  | false => exact ⟨t₄, hrun₄, hbooted₄⟩
  | true =>
    obtain ⟨t₅, hclear, hbooted₅⟩ := hbooted₄.step_clearOvr
    exact ⟨t₅, run_succ_of_run hrun₄ hclear, hbooted₅⟩

end Sys2Proof.Machine
end

section
/-! SUPPORT. The obligations on reset and boot (spec 70_reset_and_hazards.md), from the laws above. -/

namespace Sys2Proof.Proofs

open Sys2Proof.Machine

/-- Settles O8: the step is the build, and by the invariant what it builds from was clean. -/
theorem buildStepGivesTheCleanEntryState : Obligations.BuildStepGivesTheCleanEntryState := by
  intro s hs hp ha
  have hclean : (buildTables s.popTurn).CleanEntry := buildTables_cleanEntry hs.of_other_fields hp
  exact ⟨buildTables s.popTurn, step_of_constructing ha hp, rfl,
    fun i => ⟨rfl, State.inv_fwd _ i⟩, State.perm_of_keyed, hclean.pend, hclean.cmd, hclean.err,
    hclean.ilen, hclean.olen, hclean.result, fun j _ => ibuf_obuf_of_mem_nil hclean.mem j,
    hclean.memRead_status_eq⟩

/-- Settles O10: the step is the reset event, which takes from the state before it only the parameters,
the level on the pins and the host's lists. -/
theorem resetEventGivesTheResetState : Obligations.ResetEventGivesTheResetState :=
  fun s rest ha h => ⟨resetEvent { s.popTurn with hostOps := rest }, step_of_reset ha h,
    rfl, rfl, rfl, rfl, rfl, rfl, fun j _ => ibuf_obuf_of_mem_nil rfl j, rfl, rfl, rfl, rfl,
    resetEvent_memRead_status _, rfl, rfl, rfl, rfl, rfl, rfl⟩

/-- Settles O11: no step but the reset event reads the pins. -/
theorem keyChangesOnlyAtReset : Obligations.KeyChangesOnlyAtReset := by
  refine fun s t h => ⟨fun ⟨ha, hr⟩ => step_reset_key h ha hr, fun hr => ⟨step_key h hr, fun k => ?_⟩⟩
  obtain ⟨k', hk⟩ := step_withPins h hr k
  exact ⟨t.withPins k', hk, rfl⟩

/-- Settles O60: the run of the boot order ends booted, and a booted block is in the clean-entry state
with OVR clear. -/
theorem bootOrderMakesTheBlockReady : Obligations.BootOrderMakesTheBlockReady := by
  intro s clearOvr text k ops rest hparse hboot hb ht hops
  obtain rfl : .driveKey k :: .reset :: .poll :: clearOvrOps clearOvr = ops :=
    Except.ok.inj ((bootOps_of_keyParse hparse clearOvr).symm.trans hboot)
  obtain ⟨t, hrun, hbooted⟩ := run_bootOps clearOvr ht hb hops
  have hstatus : memRead t (portAddr 0x008) = 0x00000002#32 := by
    rw [hbooted.memRead_status_eq, hbooted.ovr]
    rfl
  exact ⟨t, hrun, hbooted.hostOps, hbooted.busy_eq, hbooted.ready_eq, hbooted.key, hstatus,
    hbooted.cmd, hbooted.ilen, hbooted.olen, hbooted.result, hbooted.mem⟩

end Sys2Proof.Proofs
end
